-- ==== Sys2Proof/Word.lean ====
section
/-! DEFINITION. The word types of the block. -/

namespace Sys2Proof

/-- A character, a symbol or a byte of storage (R15). -/
abbrev Byte := BitVec 8

/-- A command word or the value of a register on the bus (R23, R100). -/
abbrev Word := BitVec 32

end Sys2Proof
end

