-- ==== Sys2Proof/Syntax.lean ====
section
/-! DEFINITION. The commands of the block, one constructor per row of spec/opcode_table.json (R105). -/

namespace Sys2Proof

/-- A command with its fields (R102, R105). Every field of CFG is an unsigned number (R103); `n` is the symbol
width as written, of which the word holds 4 bits (see `Instr.wellFormed`). -/
inductive Instr where
  | nop                                                  -- NOP, F0, R220
  | cfg (n : Nat) (ci rp pg pe : Bool) (pad : Byte)      -- CFG, FC, R133
  | preset32                                             -- PRESET32, F0, R135
  | enc                                                  -- ENC, F0, R137
  | dec                                                  -- DEC, F0, R150
  | xfer                                                 -- XFER, F0, R157
  | tstep                                                -- TSTEP, F0, R180
  | ser                                                  -- SER, F0, R181
  | setlen (imm : Byte)                                  -- SETLEN, FI, R182
  | trunc                                                -- TRUNC, F0, R183
  | fmt                                                  -- FMT, F0, R184
  | otp                                                  -- OTP, F0, R185
  | srst                                                 -- SRST, F0, R221
  deriving DecidableEq, Repr

end Sys2Proof
end

