-- ==== Sys2Proof/WellFormed.lean ====
section
/-! DEFINITION. Which commands have an encoding. -/

namespace Sys2Proof

/-- A command that a command word can carry. The types of the operands bound all but one: N is 4 bits wide, so
the values 0 to 15 can be encoded (R103, R108). Whether 1 ≤ N ≤ 8 is no matter of form: CFG checks it when it
runs (R112). -/
def Instr.wellFormed : Instr → Bool
  | .cfg n _ _ _ _ _ => decide (n < 16)
  | .nop => true
  | .preset32 => true
  | .enc => true
  | .dec => true
  | .xfer => true
  | .tstep => true
  | .ser => true
  | .setlen _ => true
  | .trunc => true
  | .fmt => true
  | .otp => true
  | .srst => true

end Sys2Proof
end

