-- ==== Sys2Proof/Decode.lean ====
section
/-! DEFINITION. The command decoder (R112), total on every 32-bit word and rejecting by name; the encoder, written
from the formats of R102 and the opcode map of R105; the opcode map itself as match and mask. -/

namespace Sys2Proof

/-- Why a word is no command: the two cases of R106. -/
inductive DecodeError where
  /-- `w[7:0]` is none of the thirteen OP values of R105. Raised by `decode`. -/
  | unassignedOp (op : Byte)
  /-- `w[7:0]` is assigned but a must-be-0 field of its format holds a 1. Raised by `decode`. -/
  | reservedBits (op : Byte)
  deriving DecidableEq, Repr

/-- OP = w[7:0] (R101). -/
def opField (w : Word) : Byte := w.extractLsb' 0 8

/-- The commands without operands, by OP (R105, format F0). -/
def f0Command (op : Byte) : Option Instr :=
  if op = 0x00#8 then some .nop
  else if op = 0x02#8 then some .preset32
  else if op = 0x10#8 then some .enc
  else if op = 0x11#8 then some .dec
  else if op = 0x12#8 then some .xfer
  else if op = 0x20#8 then some .tstep
  else if op = 0x21#8 then some .ser
  else if op = 0x23#8 then some .trunc
  else if op = 0x24#8 then some .fmt
  else if op = 0x25#8 then some .otp
  else if op = 0xFF#8 then some .srst
  else none

/-- The fields of a CFG word (R102 format FC, R103). -/
def cfgOfWord (w : Word) : Instr :=
  .cfg (w.extractLsb' 8 4).toNat (w.getLsbD 12) (w.getLsbD 13) (w.getLsbD 14) (w.getLsbD 15) (w.extractLsb' 16 8)

/-- The decoder of R112: a command with its fields, or ILLEGAL with the reason. Field values are not checked. -/
def decode (w : Word) : Except DecodeError Instr :=
  let op := opField w
  if op = 0x01#8 then
    if w.extractLsb' 24 8 = 0#8 then .ok (cfgOfWord w) else .error (.reservedBits op)
  else if op = 0x22#8 then
    if w.extractLsb' 16 16 = 0#16 then .ok (.setlen (w.extractLsb' 8 8)) else .error (.reservedBits op)
  else
    match f0Command op with
    | some i => if w.extractLsb' 8 24 = 0#24 then .ok i else .error (.reservedBits op)
    | none => .error (.unassignedOp op)

/-- The word of a command of format F0 (R102). -/
def wordF0 (op : Byte) : Word := 0#24 ++ op

/-- The word of a command of format FI (R102). -/
def wordFI (imm op : Byte) : Word := (0#16 ++ imm ++ op : BitVec (16 + 8 + 8))

/-- The word of a command of format FC (R102). -/
def wordFC (pad : Byte) (pe pg rp ci : Bool) (n : BitVec 4) (op : Byte) : Word :=
  (0#8 ++ pad ++ BitVec.ofBool pe ++ BitVec.ofBool pg ++ BitVec.ofBool rp ++ BitVec.ofBool ci ++ n ++ op :
    BitVec (8 + 8 + 1 + 1 + 1 + 1 + 4 + 8))

/-- The word of a command (R101 to R105). For a command that is not well-formed only the low 4 bits of N fit. -/
def encode : Instr → Word
  | .nop => wordF0 0x00#8
  | .cfg n ci rp pg pe pad => wordFC pad pe pg rp ci (BitVec.ofNat 4 n) 0x01#8
  | .preset32 => wordF0 0x02#8
  | .enc => wordF0 0x10#8
  | .dec => wordF0 0x11#8
  | .xfer => wordF0 0x12#8
  | .tstep => wordF0 0x20#8
  | .ser => wordF0 0x21#8
  | .setlen imm => wordFI imm 0x22#8
  | .trunc => wordF0 0x23#8
  | .fmt => wordF0 0x24#8
  | .otp => wordF0 0x25#8
  | .srst => wordF0 0xFF#8

/-- A row of the opcode map (R105). -/
structure OpcodeRow where
  mnemonic : String
  matchBits : Word
  mask : Word
  deriving DecidableEq, Repr

/-- The opcode map (R105), in its order. The decoder does not use it: that the two agree is a statement. -/
def opcodeMap : List OpcodeRow :=
  [ ⟨"NOP", 0x00000000#32, 0xFFFFFFFF#32⟩,
    ⟨"CFG", 0x00000001#32, 0xFF0000FF#32⟩,
    ⟨"PRESET32", 0x00000002#32, 0xFFFFFFFF#32⟩,
    ⟨"ENC", 0x00000010#32, 0xFFFFFFFF#32⟩,
    ⟨"DEC", 0x00000011#32, 0xFFFFFFFF#32⟩,
    ⟨"XFER", 0x00000012#32, 0xFFFFFFFF#32⟩,
    ⟨"TSTEP", 0x00000020#32, 0xFFFFFFFF#32⟩,
    ⟨"SER", 0x00000021#32, 0xFFFFFFFF#32⟩,
    ⟨"SETLEN", 0x00000022#32, 0xFFFF00FF#32⟩,
    ⟨"TRUNC", 0x00000023#32, 0xFFFFFFFF#32⟩,
    ⟨"FMT", 0x00000024#32, 0xFFFFFFFF#32⟩,
    ⟨"OTP", 0x00000025#32, 0xFFFFFFFF#32⟩,
    ⟨"SRST", 0x000000FF#32, 0xFFFFFFFF#32⟩ ]

/-- "A word matches a row when `(w & mask) == match`" (R105). -/
def OpcodeRow.matches (r : OpcodeRow) (w : Word) : Bool := (w &&& r.mask) == r.matchBits

/-- The mnemonic of a command, as the opcode map spells it (R105, R108). -/
def Instr.mnemonic : Instr → String
  | .nop => "NOP"
  | .cfg _ _ _ _ _ _ => "CFG"
  | .preset32 => "PRESET32"
  | .enc => "ENC"
  | .dec => "DEC"
  | .xfer => "XFER"
  | .tstep => "TSTEP"
  | .ser => "SER"
  | .setlen _ => "SETLEN"
  | .trunc => "TRUNC"
  | .fmt => "FMT"
  | .otp => "OTP"
  | .srst => "SRST"

/-- The command the decoder reads from a word given as a number, the bits above `nbits` being 0. A command is
one 32-bit word and no other length exists (R100). -/
def decodeTableWord (nbits w : Nat) : Option Instr :=
  (decode (BitVec.ofNat 32 (w % 2 ^ nbits))).toOption

end Sys2Proof
end

