-- ==== Sys2Proof/Config.lean ====
section
/-! DEFINITION. What the spec leaves open and no state holds: free values. None has a body, so a proof holds for
every value of each. The parameters IN_CAP, OUT_CAP and STABLE_UNINIT stand in `Machine.Params` (log 2). -/

namespace Sys2Proof

/-- INIT (R8, R47): the byte that storage offset `off` holds after pin reset number `resets`, as long as nothing
has written it and STABLE_UNINIT is true. FREE VALUE, log 1. -/
opaque Config.initByte (resets off : Nat) : Byte

/-- INIT for the hidden table (R29, R47): the byte ACTIVE_ALPHA[v] holds after pin reset number `resets`.
FREE VALUE, log 1. -/
opaque Config.initSymbol (resets v : Nat) : Byte

/-- The fresh arbitrary byte that a read of the never-written storage offset `off` returns when STABLE_UNINIT is
false (R48). `tick` counts the reading operations of the run and `pass` the times one operation goes over the
same bytes, so no two reads share an argument. FREE VALUE, log 1. -/
opaque Config.freshByte (tick pass off : Nat) : Byte

/-- As `Config.freshByte`, for an entry of ACTIVE_ALPHA nothing has written (R48). FREE VALUE, log 1. -/
opaque Config.freshSymbol (tick v : Nat) : Byte

/-- HMAC (R8, R246, I7): the HMAC-SHA1 function the host applies to key and message. Nothing is known of it but
that it is a function of both with a 20-byte result. FREE VALUE, log 7. -/
opaque Config.hmacSha1 (key message : List Byte) : Vector Byte 20

/-- Whether a reset asserted during a CMD write takes effect before the command (true) or after it (R262).
FREE VALUE, log 9. -/
opaque Config.resetFirst (tick : Nat) : Bool

end Sys2Proof
end

