-- ==== Sys2Proof/Machine/State.lean ====
section
/-! DEFINITION. The state of the block as plain data (10_state.md), the transactions and events at its port (R5,
R7, R60), the reasons a step can stop, and the state after reset. -/

namespace Sys2Proof.Machine

/-- A buffer capacity: IN_CAP and OUT_CAP are 1 to 4096 (R8). -/
abbrev Capacity := { n : Nat // 1 ≤ n ∧ n ≤ 4096 }

/-- A bus base address: BASE is 16 KiB aligned; the platform defines it, so its width is left open (R8). -/
abbrev BusBase := { b : Nat // b % 0x4000 = 0 }

/-- The parameters a model takes as arguments (R6, R8); INIT and HMAC, which are functions, are in Config.lean. They
are no state: nothing changes them. They stand beside the block in `State` because the form of `exec` is fixed.
DESIGN CHOICE, log 2. -/
structure Params where
  /-- IN_CAP -/
  inCap : Capacity
  /-- OUT_CAP -/
  outCap : Capacity
  /-- STABLE_UNINIT -/
  stableUninit : Bool
  /-- BASE: where the platform puts offset 0 (log 10) -/
  base : BusBase
  deriving DecidableEq, Repr

/-- The command error codes, exactly ten (R231). -/
inductive ErrCode where
  | ok          -- 0x00 OK
  | illegal     -- 0x01 E_ILLEGAL
  | cfgN        -- 0x02 E_CFG_N
  | cfgAlen     -- 0x03 E_CFG_ALEN
  | cfgDup      -- 0x04 E_CFG_DUP
  | cfgPad      -- 0x05 E_CFG_PAD
  | noCfg       -- 0x06 E_NOCFG
  | len         -- 0x07 E_LEN
  | badSym      -- 0x08 E_BADSYM
  | ovf         -- 0x09 E_OVF
  deriving DecidableEq, Repr

/-- The fields of the CFG register (R27); its reserved bits hold nothing (R45). -/
structure CfgReg where
  n : BitVec 4
  ci : Bool
  rp : Bool
  pg : Bool
  pe : Bool
  pad : Byte
  valid : Bool
  deriving DecidableEq, Repr

/-- The CFG register with every field 0 (R27, R133, R221). -/
def CfgReg.cleared : CfgReg :=
  { n := 0#4, ci := false, rp := false, pg := false, pe := false, pad := 0#8, valid := false }

/-- Bytes by address, the written ones alone: an address that is not listed has not been written since the last
pin reset (R47, R48; log 1). The canonical form is `Memory.wf` in Machine/Ops.lean. -/
structure Memory where
  cells : List Host.Cell
  deriving DecidableEq, Repr

/-- The size of a transaction in bytes (R7). -/
inductive AccessSize where
  | one | two | four | eight
  deriving DecidableEq, Repr

/-- The data of a write: a value of exactly `size` bytes (R60). -/
inductive WriteData where
  | one (v : BitVec 8)
  | two (v : BitVec 16)
  | four (v : BitVec 32)
  | eight (v : BitVec 64)
  deriving DecidableEq, Repr

/-- A bus transaction (R60) at a byte offset of the 14-bit space (R61). -/
inductive Transaction where
  | read (off : BitVec 14) (size : AccessSize)
  | write (off : BitVec 14) (data : WriteData)
  deriving DecidableEq, Repr

/-- `resp` of a transaction (R7, R60). -/
inductive Resp where
  | okay | slverr
  deriving DecidableEq, Repr

/-- What a transaction returns (R60). `rdata` is the number read, zero-extended; a write answered OKAY has none,
since the spec gives none (log 6). -/
structure Response where
  resp : Resp
  rdata : Option (BitVec 64)
  deriving DecidableEq, Repr

/-- What an agent outside the block can do to it (R5, R7). -/
inductive PortEvent where
  /-- A host master's transaction (R60). -/
  | bus (t : Transaction)
  /-- `rst_n` asserted and released between transactions (R260). -/
  | pinReset
  /-- `rst_n` asserted during the CMD write of the word `w` (R262). -/
  | resetDuringCmd (w : Word)
  /-- The HMAC-SHA1 unit takes key and message and starts to write the digest (R246). -/
  | hmacStep
  deriving DecidableEq, Repr

/-- The architectural state of the block: exactly what R20 lists, and no other field. CMD holds nothing between
writes, so it has no field (R24, log 12). -/
structure Block where
  /-- STATUS.ERRCODE (R25, R231) -/
  errCode : ErrCode
  /-- STATUS.ANYERR (R25, R234) -/
  anyErr : Bool
  /-- ERRINFO (R26) -/
  errInfo : BitVec 16
  /-- CFG (R27) -/
  cfg : CfgReg
  /-- ALPHA_LEN (R30) -/
  alphaLen : BitVec 9
  /-- IN_LEN (R32) -/
  inLen : BitVec 16
  /-- OUT_LEN (R34) -/
  outLen : BitVec 16
  /-- CODE_LEN (R36) -/
  codeLen : BitVec 8
  /-- TIME (R38) -/
  time : BitVec 64
  /-- CTR (R39) -/
  ctr : BitVec 64
  /-- TVAL (R42) -/
  tval : BitVec 31
  /-- TOFF (R43) -/
  toff : BitVec 4
  /-- The byte buffers ALPHA, DIGEST, MSG, CODE_BUF, IN_BUF and OUT_BUF by bus offset (R31, R33, R35, R37, R40,
  R41, R62) -/
  mem : Memory
  /-- ACTIVE_ALPHA by symbol value (R29), which no offset reaches (R82) -/
  activeAlpha : Memory
  deriving DecidableEq, Repr

/-- What a step acts on: the block (R20) and, beside it, its bus port (R7) and the model's own fields. None of the
latter is state of the block: they stand here because `step` has one argument (log 2, log 4). -/
structure State extends Block where
  /-- The events waiting at the port, in the order they arrive (R74) -/
  port : List PortEvent
  /-- The response to the transaction served last (R60) -/
  response : Option Response
  /-- The model's own: the parameters (log 2) -/
  params : Params
  /-- The model's own: how many reading operations have been made (log 1) -/
  tick : Nat
  /-- The model's own: how many pin resets there have been (log 8) -/
  resets : Nat
  deriving DecidableEq, Repr

/-- The reasons a step stops with a fault. There are none, so no step does: the block never traps and never hangs
(R230, R239), a bad access gets SLVERR (R236) and a failing command reports in STATUS (R231). -/
inductive Fault where
  deriving DecidableEq, Repr

/-- The reasons a step is refused. -/
inductive Refusal where
  /-- An instruction without a meaning, raised by an arm of `exec` alone. Safe: the machine stops. No arm of this
  model raises it. -/
  | notModelled (mnemonic : String)
  deriving DecidableEq, Repr

/-- The block after power-on reset (R23, R260). Buffers: nothing listed (R47, log 1). -/
def Block.reset : Block :=
  { errCode := .ok
    anyErr := false
    errInfo := 0#16
    cfg := CfgReg.cleared
    alphaLen := 0#9
    inLen := 0#16
    outLen := 0#16
    codeLen := 6#8
    time := 0#64
    ctr := 0#64
    tval := 0#31
    toff := 0#4
    mem := ⟨[]⟩
    activeAlpha := ⟨[]⟩ }

/-- The block after power-on reset, with nothing waiting at its port (log 4). Parameters: the values of the spec's
vectors, the safe setting (R8, log 2), and base address 0 (log 10). -/
def State.reset : State :=
  { toBlock := Block.reset
    port := []
    response := none
    params := { inCap := ⟨4096, by decide⟩, outCap := ⟨4096, by decide⟩, stableUninit := false, base := ⟨0, by decide⟩ }
    tick := 0
    resets := 0 }

end Sys2Proof.Machine
end

