-- ==== Sys2Proof/Machine/Ops.lean ====
section
/-! DEFINITION. The named operations over storage and registers: the canonical form of memory, reading and writing
bytes, the address map (R62), what a register reads as and what a write to it does (R23 to R45, R67), the soft reset
and the pin reset (R221, R260). -/

namespace Sys2Proof.Machine

/-! ### Memory -/

/-- The canonical form: addresses strictly rising. What an unlisted address reads as is a free value (log 1), so no
listed entry can equal it and the form asks nothing more. -/
abbrev Memory.wf (m : Memory) : Prop := m.cells.Pairwise (fun x y => x.1 < y.1)

/-- The byte written at `a`, if one has been. -/
def cellAt : List Host.Cell → Nat → Option Byte
  | [], _ => none
  | (k, b) :: rest, a => if k = a then some b else cellAt rest a

/-- The byte written at address `a` since the last pin reset, if one has been. -/
def Memory.byteAt (m : Memory) (a : Nat) : Option Byte := cellAt m.cells a

/-- The cells with `b` at `a`, in place if rising. -/
def putCell : List Host.Cell → Nat → Byte → List Host.Cell
  | [], a, b => [(a, b)]
  | (k, c) :: rest, a, b =>
    if a < k then (a, b) :: (k, c) :: rest
    else if a = k then (a, b) :: rest
    else (k, c) :: putCell rest a b

/-- Memory with the byte `b` written at `a`. -/
def Memory.writeByte (m : Memory) (a : Nat) (b : Byte) : Memory := ⟨putCell m.cells a b⟩

/-- Memory with `bs` written at `a`, `a + 1` and so on. -/
def Memory.writeBytes (m : Memory) (a : Nat) : List Byte → Memory
  | [] => m
  | b :: bs => (m.writeByte a b).writeBytes (a + 1) bs

/-! ### Parameters -/

/-- IN_CAP (R8). -/
def State.inCap (s : State) : Nat := s.params.inCap.val

/-- OUT_CAP (R8). -/
def State.outCap (s : State) : Nat := s.params.outCap.val

/-- The bus address of an offset: BASE plus the offset (R8, R60, R61). -/
def Params.address (p : Params) (off : BitVec 14) : Nat := p.base.val + off.toNat

/-- The offset at which a bus address reaches the block, if it lies in the block's 16 KiB (R61, log 10). -/
def Params.offsetOf (p : Params) (address : Nat) : Option (BitVec 14) :=
  if p.base.val ≤ address ∧ address < p.base.val + 0x4000 then some (BitVec.ofNat 14 (address - p.base.val)) else none

/-! ### The address map (R62) -/

/-- The registers of R62. -/
inductive Reg where
  | cmd | status | errInfo | cfg | alphaLen | inLen | outLen | codeLen
  | timeLo | timeHi | ctrLo | ctrHi | tval | toff
  deriving DecidableEq, Repr

/-- The byte windows of R62. -/
inductive Buffer where
  | alpha | digest | msg | codeBuf | inBuf | outBuf
  deriving DecidableEq, Repr

/-- A place of the address map: a register, or byte `i` of a window. -/
inductive Location where
  | reg (r : Reg)
  | byte (b : Buffer) (i : Nat)
  deriving DecidableEq, Repr

/-- Every register, in the order of R62. -/
def Reg.all : List Reg :=
  [.cmd, .status, .errInfo, .cfg, .alphaLen, .inLen, .outLen, .codeLen, .timeLo, .timeHi, .ctrLo, .ctrHi, .tval, .toff]

/-- The offset of a register (R62). -/
def Reg.offset : Reg → Nat
  | .cmd => 0x000
  | .status => 0x004
  | .errInfo => 0x008
  | .cfg => 0x00C
  | .alphaLen => 0x010
  | .inLen => 0x014
  | .outLen => 0x018
  | .codeLen => 0x01C
  | .timeLo => 0x020
  | .timeHi => 0x024
  | .ctrLo => 0x028
  | .ctrHi => 0x02C
  | .tval => 0x030
  | .toff => 0x034

/-- Every byte window, in the order of R62. -/
def Buffer.all : List Buffer := [.alpha, .digest, .msg, .codeBuf, .inBuf, .outBuf]

/-- The offset of byte 0 of a window (R62). -/
def Buffer.base : Buffer → Nat
  | .alpha => 0x100
  | .digest => 0x200
  | .msg => 0x220
  | .codeBuf => 0x300
  | .inBuf => 0x1000
  | .outBuf => 0x2000

/-- How many bytes a window has (R20, R62). -/
def Buffer.size (p : Params) : Buffer → Nat
  | .alpha => 256
  | .digest => 20
  | .msg => 8
  | .codeBuf => 256
  | .inBuf => p.inCap.val
  | .outBuf => p.outCap.val

/-- Whether a transaction may write the window (R62, R67). -/
def Buffer.hostWritable : Buffer → Bool
  | .alpha => true
  | .digest => true
  | .msg => false
  | .codeBuf => false
  | .inBuf => true
  | .outBuf => false

/-- Whether offset `off` lies in the window. -/
def Buffer.holds (p : Params) (off : Nat) (b : Buffer) : Bool := decide (b.base ≤ off ∧ off < b.base + b.size p)

/-- What stands at an offset (R62); `none` is unmapped (R65, R66) or inside a register word (R63). -/
def locate (p : Params) (off : Nat) : Option Location :=
  match Reg.all.find? (fun r => r.offset == off) with
  | some r => some (.reg r)
  | none =>
    match Buffer.all.find? (Buffer.holds p off) with
    | some b => some (.byte b (off - b.base))
    | none => none

/-! ### Storage -/

/-- The byte a read of storage offset `off` returns: the byte written there last, or, where nothing has been
written since the pin reset, the free value R48 gives. `pass` numbers the times one operation goes over the same
bytes (log 3). -/
def State.storage (s : State) (pass off : Nat) : Byte :=
  match s.mem.byteAt off with
  | some b => b
  | none => if s.params.stableUninit then Config.initByte s.resets off else Config.freshByte s.tick pass off

/-- Bytes 0 to `k - 1` of a buffer, each read once. -/
def State.readBuf (s : State) (pass : Nat) (b : Buffer) (k : Nat) : List Byte :=
  (List.range k).map (fun i => s.storage pass (b.base + i))

/-- `bs` written to bytes 0, 1, ... of a buffer; no other byte is written (R141). -/
def State.writeBuf (s : State) (b : Buffer) (bs : List Byte) : State :=
  { s with mem := s.mem.writeBytes b.base bs }

/-- One byte written to a buffer. -/
def State.writeBufByte (s : State) (b : Buffer) (i : Nat) (v : Byte) : State :=
  { s with mem := s.mem.writeByte (b.base + i) v }

/-- `sym(v)`: ACTIVE_ALPHA[v] (R29, R130); an entry nothing has written reads as R48 says. -/
def State.symbol (s : State) (v : Nat) : Byte :=
  match s.activeAlpha.byteAt v with
  | some b => b
  | none => if s.params.stableUninit then Config.initSymbol s.resets v else Config.freshSymbol s.tick v

/-- The end of a reading operation: what it returned for never-written bytes says nothing about the next one. -/
def State.nextTick (s : State) : State := { s with tick := s.tick + 1 }

/-! ### Registers written by commands -/

/-- OUT_BUF[0..L) and OUT_LEN written (R137, R150). -/
def State.putOutput (s : State) (bs : List Byte) : State :=
  { s with mem := s.mem.writeBytes Buffer.outBuf.base bs, outLen := BitVec.ofNat 16 bs.length }

/-- IN_BUF[0..L) and IN_LEN written (R157). -/
def State.putInput (s : State) (bs : List Byte) : State :=
  { s with mem := s.mem.writeBytes Buffer.inBuf.base bs, inLen := BitVec.ofNat 16 bs.length }

/-- Every field of CFG cleared, VALID with them (R133, R221). -/
def State.clearCfg (s : State) : State := { s with cfg := CfgReg.cleared }

/-- A configuration and the first entries of ACTIVE_ALPHA latched (R133, R135); the entries beyond them stay. -/
def State.latchCodec (s : State) (c : CfgReg) (syms : List Byte) : State :=
  { s with cfg := c, activeAlpha := s.activeAlpha.writeBytes 0 syms }

/-- The SRST column of R23 (R221, R46): every register at its SRST value, every buffer kept. ERRCODE and ERRINFO
are written after it, as after every command. -/
def State.softReset (s : State) : State :=
  { s with
    cfg := CfgReg.cleared
    alphaLen := 0#9
    inLen := 0#16
    outLen := 0#16
    codeLen := 6#8
    time := 0#64
    ctr := 0#64
    tval := 0#31
    toff := 0#4
    anyErr := false }

/-- Power-on or pin reset (R260): the registers at their reset values and no byte of storage known (R47). What is
outside the block, its port and its parameters, stays; no response is pending. -/
def State.powerOn (s : State) : State :=
  { toBlock := Block.reset
    port := s.port
    response := none
    params := s.params
    tick := s.tick + 1
    resets := s.resets + 1 }

/-! ### Registers on the bus -/

/-- The number of an error code (R231). -/
def ErrCode.code : ErrCode → Byte
  | .ok => 0x00#8
  | .illegal => 0x01#8
  | .cfgN => 0x02#8
  | .cfgAlen => 0x03#8
  | .cfgDup => 0x04#8
  | .cfgPad => 0x05#8
  | .noCfg => 0x06#8
  | .len => 0x07#8
  | .badSym => 0x08#8
  | .ovf => 0x09#8

/-- The value a size-4 read of a register returns (R23 to R45, R68, R72). Reserved bits and BUSY read 0. -/
def State.regRead (s : State) : Reg → Word
  | .cmd => 0#32
  | .status => (0#22 ++ BitVec.ofBool s.cfg.valid ++ BitVec.ofBool s.anyErr ++ s.errCode.code : BitVec (22 + 1 + 1 + 8))
  | .errInfo => s.errInfo.setWidth 32
  | .cfg =>
    (0#15 ++ BitVec.ofBool s.cfg.valid ++ s.cfg.pad ++ BitVec.ofBool s.cfg.pe ++ BitVec.ofBool s.cfg.pg ++
      BitVec.ofBool s.cfg.rp ++ BitVec.ofBool s.cfg.ci ++ s.cfg.n : BitVec (15 + 1 + 8 + 1 + 1 + 1 + 1 + 4))
  | .alphaLen => s.alphaLen.setWidth 32
  | .inLen => s.inLen.setWidth 32
  | .outLen => s.outLen.setWidth 32
  | .codeLen => s.codeLen.setWidth 32
  | .timeLo => s.time.extractLsb' 0 32
  | .timeHi => s.time.extractLsb' 32 32
  | .ctrLo => s.ctr.extractLsb' 0 32
  | .ctrHi => s.ctr.extractLsb' 32 32
  | .tval => s.tval.setWidth 32
  | .toff => s.toff.setWidth 32

/-- A size-4 write to a register other than CMD. STATUS: only ANYERR, and only when bit 8 is 1 (R25). The length
registers keep their low bits (R30, R32). TIME and CTR are written in halves (R38, R39, R72). A read-only register
keeps its value (R67); a write to CMD executes a command and is not handled here (R78). -/
def State.regWrite (s : State) (v : Word) : Reg → State
  | .cmd => s
  | .status => if v.getLsbD 8 then { s with anyErr := false } else s
  | .errInfo => s
  | .cfg => s
  | .alphaLen => { s with alphaLen := v.setWidth 9 }
  | .inLen => { s with inLen := v.setWidth 16 }
  | .outLen => s
  | .codeLen => s
  | .timeLo => { s with time := (s.time.extractLsb' 32 32 ++ v : BitVec (32 + 32)) }
  | .timeHi => { s with time := (v ++ s.time.extractLsb' 0 32 : BitVec (32 + 32)) }
  | .ctrLo => { s with ctr := (s.ctr.extractLsb' 32 32 ++ v : BitVec (32 + 32)) }
  | .ctrHi => { s with ctr := (v ++ s.ctr.extractLsb' 0 32 : BitVec (32 + 32)) }
  | .tval => s
  | .toff => s

end Sys2Proof.Machine
end

