-- ==== Sys2Proof/Machine/Flags.lean ====
section
/-! DEFINITION. STATUS and ERRINFO: the update after every command (R233) and the two ways a command ends (R14 `fail`, R232). This block takes no exception (R230): reporting an error here is the
one shared operation in its place, and there is nothing to return from (R238). -/

namespace Sys2Proof.Machine

/-- The update of STATUS and ERRINFO after every command (R233): ANYERR is set by an error and cleared by nothing
here (R234). The command's reading is over with it. -/
def State.report (s : State) (e : ErrCode) (info : BitVec 16) : State :=
  { s with errCode := e, errInfo := info, anyErr := s.anyErr || e != .ok, tick := s.tick + 1 }

/-- A command ends without an error. -/
def succeed (s : State) : Host.Outcome State Fault Refusal := .next (s.report .ok 0#16)

/-- `fail E(info)` (R14): a command ends with an error, and nothing but STATUS and ERRINFO is written (R232). -/
def fail (e : ErrCode) (info : BitVec 16) (s : State) : Host.Outcome State Fault Refusal := .next (s.report e info)

/-- What a word that is no command does (R106, R231). -/
def execIllegal (s : State) : Host.Outcome State Fault Refusal := fail .illegal 0#16 s

end Sys2Proof.Machine
end

