-- ==== Sys2Proof/Machine/Operands.lean ====
section
/-! DEFINITION. How the commands read their operands and compute on them: bit streams and groups (R11, R12), case
and matching (R131, R132), the checks of a configuration (R134), the encoding and decoding of symbol strings (R137
to R140, R150 to R153), the big-endian forms of the counter and of the truncated value (R181, R183) and the decimal
digits (R184). Arithmetic is on unbounded natural numbers (R13). -/

namespace Sys2Proof.Machine

/-! ### Bit streams -/

/-- The `w` low bits of `v`, most significant first. -/
def bitsOf (w v : Nat) : List Bool := (List.range w).map (fun b => v.testBit (w - 1 - b))

/-- `bits(B)` (R12): every byte contributes its eight bits, most significant first. -/
def byteBits (bs : List Byte) : List Bool := bs.flatMap (fun b => bitsOf 8 b.toNat)

/-- The value of a group of bits whose first bit is the most significant (R11). -/
def bitsValue (bits : List Bool) : Nat := bits.foldl (fun v b => 2 * v + b.toNat) 0

/-- `group(s, p, w)` (R11, R130): the value of the `w` bits of `s` from position `p` on. -/
def group (s : List Bool) (p w : Nat) : Nat := bitsValue ((s.drop p).take w)

/-! ### Characters -/

/-- `fold(c)`, the ASCII case fold (R131). -/
def fold (c : Byte) : Byte := if 0x61 ≤ c.toNat ∧ c.toNat ≤ 0x7A then c - 0x20#8 else c

/-- `key` of R134: `fold` when CI = 1 and the identity when CI = 0. -/
def charKey (ci : Bool) (c : Byte) : Byte := if ci then fold c else c

/-- `match(c, a)` (R132). -/
def matchSym (ci : Bool) (c a : Byte) : Bool := charKey ci c == charKey ci a

/-! ### Configurations -/

/-- The checks of R134 in their order, on the `2^n` staged symbols: the code of the first that fails. -/
def cfgCheck (n : Nat) (ci pg pe : Bool) (pad : Byte) (alphaLen : Nat) (alpha : List Byte) : Option ErrCode :=
  if ¬ (1 ≤ n ∧ n ≤ 8) then some .cfgN
  else if alphaLen ≠ 2 ^ n then some .cfgAlen
  else if pg && !pe then some .cfgPad
  else if ¬ (alpha.map (charKey ci)).Nodup then some .cfgDup
  else if pe && (alpha.map (charKey ci)).contains (charKey ci pad) then some .cfgPad
  else none

/-- `"ABCDEFGHIJKLMNOPQRSTUVWXYZ234567"` (R135, G1) as bytes (R15). -/
def base32Alphabet : List Byte :=
  (List.range 26).map (fun v => BitVec.ofNat 8 (0x41 + v)) ++ (List.range 6).map (fun v => BitVec.ofNat 8 (0x32 + v))

/-- The configuration PRESET32 latches (R135). -/
def presetCfg : CfgReg :=
  { n := 5#4, ci := true, rp := true, pg := false, pe := true, pad := 0x3D#8, valid := true }

/-! ### Encoding -/

/-- The block length `B(n)` in symbols (R136). -/
def blockLen (n : Nat) : Nat := 8 / Nat.gcd 8 n

/-- How many pad characters bring `len` up to the next multiple of the block length (R140): 0 to `B(n) - 1`. -/
def padCount (n len : Nat) : Nat := (blockLen n - len % blockLen n) % blockLen n

/-- The symbol values of ENC (R137): the whole groups, then the final partial group if there is one and RP = 1,
left-justified and zero-filled (R139). -/
def encValues (n : Nat) (rp : Bool) (bs : List Byte) : List Nat :=
  let s := byteBits bs
  let whole := (8 * bs.length) / n
  let r := (8 * bs.length) % n
  (List.range whole).map (fun i => group s (i * n) n) ++
    (if r ≠ 0 ∧ rp = true then [group s (whole * n) r * 2 ^ (n - r)] else [])

/-- The whole output of ENC: the body and, when PG = 1, the group padding (R137, R140). -/
def encString (n : Nat) (rp pg : Bool) (pad : Byte) (sym : Nat → Byte) (bs : List Byte) : List Byte :=
  let body := (encValues n rp bs).map sym
  if pg then body ++ List.replicate (padCount n body.length) pad else body

/-! ### Decoding -/

/-- What is left of a string when every trailing byte equal to the pad character is removed (R151). -/
def stripPads (pe : Bool) (pad : Byte) (cs : List Byte) : List Byte :=
  if pe then (cs.reverse.dropWhile (fun c => c == pad)).reverse else cs

/-- The value of a symbol: the `v < 2^n` that matches (R152), or none. -/
def symbolValue (n : Nat) (ci : Bool) (sym : Nat → Byte) (c : Byte) : Option Nat :=
  (List.range (2 ^ n)).find? (fun v => matchSym ci c (sym v))

/-- The values of the symbols of a string that starts at index `i`, or the lowest index without one (R152). -/
def symbolValues (value : Byte → Option Nat) : Nat → List Byte → Except Nat (List Nat)
  | _, [] => .ok []
  | i, c :: cs =>
    match value c with
    | none => .error i
    | some v =>
      match symbolValues value (i + 1) cs with
      | .error j => .error j
      | .ok vs => .ok (v :: vs)

/-- The number of bytes DEC produces from `len` symbols (R153, R154). -/
def decLen (n len : Nat) : Nat := (n * len) / 8 + (if (n * len) % 8 ≥ n then 1 else 0)

/-- The bytes DEC produces from the symbol values (R150): the values as `n` bits each, zero-filled to whole bytes,
`decLen` of them (R153). -/
def decBytes (n : Nat) (vals : List Nat) : List Byte :=
  let m := decLen n vals.length
  let s := vals.flatMap (bitsOf n) ++ List.replicate (8 * m - n * vals.length) false
  (List.range m).map (fun j => BitVec.ofNat 8 (group s (8 * j) 8))

/-! ### The one-time code -/

/-- The counter of R180: whole 30-second steps. -/
def timeStep (t : BitVec 64) : BitVec 64 := BitVec.ofNat 64 (t.toNat / 30)

/-- The 8-byte big-endian form of the counter (R181): byte 0 is the most significant. -/
def counterBytes (c : BitVec 64) : List Byte :=
  (List.range 8).map (fun i => c.extractLsb' (56 - 8 * i) 8)

/-- `offset = last_byte & 0x0F` (R183). -/
def truncOffset (lastByte : Byte) : Nat := (lastByte &&& 0x0F#8).toNat

/-- Four bytes as a big-endian 32-bit unsigned integer (R73, R183). -/
def word4 (b0 b1 b2 b3 : Byte) : BitVec 32 := (b0 ++ b1 ++ b2 ++ b3 : BitVec (8 + 8 + 8 + 8))

/-- `x & 0x7FFFFFFF` as the 31-bit value it is (R42, R183). -/
def mask31 (x : BitVec 32) : BitVec 31 := (x &&& 0x7FFFFFFF#32).setWidth 31

/-- The truncated value of the digest whose byte `i` is `d i` (R183). -/
def truncValue (d : Nat → Byte) : BitVec 31 :=
  let off := truncOffset (d 19)
  mask31 (word4 (d off) (d (off + 1)) (d (off + 2)) (d (off + 3)))

/-- CODE_LEN as SETLEN sets it (R182). -/
def clampLen (imm : Byte) : Byte := if imm.toNat < 6 then 6#8 else imm

/-- The code of R184: `d` ASCII digits of `value mod 10^d`, most significant first. -/
def codeDigits (d value : Nat) : List Byte :=
  let c := value % 10 ^ d
  (List.range d).map (fun j => BitVec.ofNat 8 (0x30 + (c / 10 ^ (d - 1 - j)) % 10))

end Sys2Proof.Machine
end

