-- ==== Sys2Proof/Machine/Codec.lean ====
section
/-! DEFINITION. The codec commands CFG, PRESET32, ENC, DEC and XFER (40_codec.md). -/

namespace Sys2Proof.Machine

/-- CFG (R133): CFG is cleared first, so a failing check (R134) leaves the block unconfigured (R232). ALPHA[0..2^N)
is read once, for the checks and the copy alike (log 3). -/
def execCfg (n : Nat) (ci rp pg pe : Bool) (pad : Byte) (s : State) : Host.Outcome State Fault Refusal :=
  let alpha := s.readBuf 0 .alpha (2 ^ n)
  match cfgCheck n ci pg pe pad s.alphaLen.toNat alpha with
  | some e => fail e 0#16 s.clearCfg
  | none =>
    succeed (s.latchCodec { n := BitVec.ofNat 4 n, ci := ci, rp := rp, pg := pg, pe := pe, pad := pad, valid := true } alpha)

/-- PRESET32 (R135). -/
def execPreset32 (s : State) : Host.Outcome State Fault Refusal := succeed (s.latchCodec presetCfg base32Alphabet)

/-- ENC (R137), its checks in the order of R142. -/
def execEnc (s : State) : Host.Outcome State Fault Refusal :=
  if s.cfg.valid = false then fail .noCfg 0#16 s
  else if s.inLen.toNat > s.inCap then fail .len 0#16 s
  else
    let out := encString s.cfg.n.toNat s.cfg.rp s.cfg.pg s.cfg.pad s.symbol (s.readBuf 0 .inBuf s.inLen.toNat)
    if out.length > s.outCap then fail .ovf 0#16 s else succeed (s.putOutput out)

/-- DEC (R150), its checks in the order of R155. The pads are stripped in a first pass over IN_BUF and the symbols
looked up in a second one (log 3). -/
def execDec (s : State) : Host.Outcome State Fault Refusal :=
  if s.cfg.valid = false then fail .noCfg 0#16 s
  else if s.inLen.toNat > s.inCap then fail .len 0#16 s
  else
    let len := (stripPads s.cfg.pe s.cfg.pad (s.readBuf 0 .inBuf s.inLen.toNat)).length
    match symbolValues (symbolValue s.cfg.n.toNat s.cfg.ci s.symbol) 0 (s.readBuf 1 .inBuf len) with
    | .error i => fail .badSym (BitVec.ofNat 16 i) s
    | .ok vals =>
      if decLen s.cfg.n.toNat vals.length > s.outCap then fail .ovf 0#16 s
      else succeed (s.putOutput (decBytes s.cfg.n.toNat vals))

/-- XFER (R157). -/
def execXfer (s : State) : Host.Outcome State Fault Refusal :=
  if s.outLen.toNat > s.inCap then fail .ovf 0#16 s
  else succeed (s.putInput (s.readBuf 0 .outBuf s.outLen.toNat))

end Sys2Proof.Machine
end

