-- ==== Sys2Proof/Machine/Control.lean ====
section
/-! DEFINITION. The control commands NOP and SRST (42_control.md). -/

namespace Sys2Proof.Machine

/-- NOP (R220): only ERRCODE and ERRINFO are written, as by every command. -/
def execNop (s : State) : Host.Outcome State Fault Refusal := succeed s

/-- SRST (R221). -/
def execSrst (s : State) : Host.Outcome State Fault Refusal := succeed s.softReset

end Sys2Proof.Machine
end

