-- ==== Sys2Proof/Machine/Otp.lean ====
section
/-! DEFINITION. The OTP commands TSTEP, SER, SETLEN, TRUNC, FMT and OTP (41_otp.md). None of them fails. -/

namespace Sys2Proof.Machine

/-- TSTEP (R180). -/
def execTstep (s : State) : Host.Outcome State Fault Refusal := succeed { s with ctr := timeStep s.time }

/-- SER (R181). -/
def execSer (s : State) : Host.Outcome State Fault Refusal := succeed (s.writeBuf .msg (counterBytes s.ctr))

/-- SETLEN (R182). -/
def execSetlen (imm : Byte) (s : State) : Host.Outcome State Fault Refusal := succeed { s with codeLen := clampLen imm }

/-- DIGEST[i], as a command reads it (R41). -/
def State.digest (s : State) (i : Nat) : Byte := s.storage 0 (Buffer.digest.base + i)

/-- The body of TRUNC (R183), which OTP shares (R185). -/
def State.truncate (s : State) : State :=
  { s with toff := BitVec.ofNat 4 (truncOffset (s.digest 19)), tval := truncValue s.digest }

/-- TRUNC (R183). -/
def execTrunc (s : State) : Host.Outcome State Fault Refusal := succeed s.truncate

/-- The body of FMT (R184), which OTP shares (R185). -/
def State.format (s : State) : State := s.writeBuf .codeBuf (codeDigits s.codeLen.toNat s.tval.toNat)

/-- FMT (R184). -/
def execFmt (s : State) : Host.Outcome State Fault Refusal := succeed s.format

/-- OTP (R185): TRUNC, then FMT, with nothing observable in between. -/
def execOtp (s : State) : Host.Outcome State Fault Refusal := succeed s.truncate.format

end Sys2Proof.Machine
end

