-- ==== Sys2Proof/Machine/Dispatch.lean ====
section
/-! DEFINITION. The command engine's table: one arm per command. -/

namespace Sys2Proof.Machine

def exec (i : Instr) (s : State) : Host.Outcome State Fault Refusal :=
  match i with
  | .nop => Sys2Proof.Machine.execNop s
  | .cfg n ci rp pg pe pad => Sys2Proof.Machine.execCfg n ci rp pg pe pad s
  | .preset32 => Sys2Proof.Machine.execPreset32 s
  | .enc => Sys2Proof.Machine.execEnc s
  | .dec => Sys2Proof.Machine.execDec s
  | .xfer => Sys2Proof.Machine.execXfer s
  | .tstep => Sys2Proof.Machine.execTstep s
  | .ser => Sys2Proof.Machine.execSer s
  | .setlen imm => Sys2Proof.Machine.execSetlen imm s
  | .trunc => Sys2Proof.Machine.execTrunc s
  | .fmt => Sys2Proof.Machine.execFmt s
  | .otp => Sys2Proof.Machine.execOtp s
  | .srst => Sys2Proof.Machine.execSrst s

end Sys2Proof.Machine
end

