-- ==== Sys2Proof/Machine/Bus.lean ====
section
/-! DEFINITION. The bus slave port (20_memory.md): what a transaction does and returns, the execution of a command
word, and how the events at the port are served, one at a time in the order they arrive (R74). -/

namespace Sys2Proof.Machine

/-- The size of the data of a write, in bytes (R60). -/
def WriteData.size : WriteData → AccessSize
  | .one _ => .one
  | .two _ => .two
  | .four _ => .four
  | .eight _ => .eight

/-- The offset of a transaction (R60). -/
def Transaction.off : Transaction → Nat
  | .read off _ => off.toNat
  | .write off _ => off.toNat

/-- The size of a transaction (R60). -/
def Transaction.size : Transaction → AccessSize
  | .read _ size => size
  | .write _ data => data.size

/-- The response of a transaction that gets SLVERR: rdata is 0 (R60). -/
def slverr : Response := { resp := .slverr, rdata := some 0#64 }

/-- The response of a read that gets OKAY; a register or a byte is returned as the number it is (R72). -/
def okayRead (v : BitVec 64) : Response := { resp := .okay, rdata := some v }

/-- The response of a write that gets OKAY (R60 names no rdata for it, log 6). -/
def okayWrite : Response := { resp := .okay, rdata := none }

/-- The state with the response to the transaction just served. -/
def State.respond (s : State) (r : Response) : State := { s with response := some r }

/-- A command's outcome with the response to its CMD write: OKAY whether it succeeded or failed (R78). -/
def acknowledge : Host.Outcome State Fault Refusal → Host.Outcome State Fault Refusal
  | .next s => .next (s.respond okayWrite)
  | .fault f => .fault f
  | .refused r => .refused r

/-- The command engine on a command word (R78): decode (R112), then the command's rule; the update of STATUS and
ERRINFO (R233) is the end of that rule. A word that is no command fails with E_ILLEGAL (R106). -/
def execWord (w : Word) (s : State) : Host.Outcome State Fault Refusal :=
  match decode w with
  | .ok i => exec i s
  | .error _ => execIllegal s

/-- A read transaction (R60): SLVERR for an unmapped offset (R65, R66) or a size that is not the location's own
(R63, R64); else the value there. Nothing the spec calls state changes (R69); a storage read is a reading operation
of its own (log 1). -/
def State.serveRead (s : State) (off : BitVec 14) (size : AccessSize) : State :=
  match locate s.params off.toNat, size with
  | some (.reg r), .four => s.respond (okayRead ((s.regRead r).setWidth 64))
  | some (.byte b i), .one => s.nextTick.respond (okayRead ((s.storage 0 (b.base + i)).setWidth 64))
  | _, _ => s.respond slverr

/-- A write transaction (R60): SLVERR as for a read, with no effect; a word to CMD runs a command (R78); any other
register is written as `State.regWrite` says; a byte goes to its window, or is ignored if the window is read-only
(R67). -/
def State.serveWrite (s : State) (off : BitVec 14) (data : WriteData) : Host.Outcome State Fault Refusal :=
  match locate s.params off.toNat, data with
  | some (.reg .cmd), .four w => acknowledge (execWord w s)
  | some (.reg r), .four v => .next ((s.regWrite v r).respond okayWrite)
  | some (.byte b i), .one v =>
    .next ((if b.hostWritable then s.writeBufByte b i v else s).respond okayWrite)
  | _, _ => .next (s.respond slverr)

/-- A transaction (R60). -/
def State.serveTransaction (s : State) : Transaction → Host.Outcome State Fault Refusal
  | .read off size => .next (s.serveRead off size)
  | .write off data => s.serveWrite off data

/-- The key the HMAC unit reads: OUT_BUF[0..OUT_LEN) (R246). -/
def State.hmacKey (s : State) : List Byte := s.readBuf 0 .outBuf s.outLen.toNat

/-- The message the HMAC unit reads: MSG[0..8) (R246). -/
def State.hmacMessage (s : State) : List Byte := s.readBuf 0 .msg 8

/-- The size-1 writes of a byte list to a window from its byte `i` on (R110). Where the window's base plus the index
is 0x4000 or more the spec does not say what the transaction is: the offset is taken mod 2^14. DESIGN CHOICE, log 14. -/
def windowWrites (b : Buffer) : Nat → List Byte → List Transaction
  | _, [] => []
  | i, v :: vs => .write (BitVec.ofNat 14 (b.base + i)) (.one v) :: windowWrites b (i + 1) vs

/-- The HMAC step (R246, R110): key and message are taken, and the 20 writes of the digest wait at the port, before
what waited there already. The block notices nothing (log 7). -/
def State.serveHmac (s : State) : State :=
  let d := Config.hmacSha1 s.hmacKey s.hmacMessage
  { s.nextTick with port := (windowWrites .digest 0 d.toList).map PortEvent.bus ++ s.port }

/-- A reset during a CMD write (R262): it takes effect before the command, which then never runs, or after it; the
spec does not say which, so a free choice does (log 9). -/
def State.serveResetDuringCmd (s : State) (w : Word) : Host.Outcome State Fault Refusal :=
  if Config.resetFirst s.tick then .next s.powerOn
  else
    match execWord w s with
    | .next s' => .next s'.powerOn
    | .fault f => .fault f
    | .refused r => .refused r

/-- One event at the port. -/
def State.serve (s : State) : PortEvent → Host.Outcome State Fault Refusal
  | .bus t => s.serveTransaction t
  | .pinReset => .next s.powerOn
  | .resetDuringCmd w => s.serveResetDuringCmd w
  | .hmacStep => .next s.serveHmac

/-- The oldest event at the port is taken off and served, completely (R74, R78); with none waiting the block holds
its state (R247, log 5). -/
def State.serveNext (s : State) : Host.Outcome State Fault Refusal :=
  match s.port with
  | [] => .next s
  | e :: rest => State.serve { s with port := rest } e

/-- The state with a write of the command word `w` to CMD as the next transaction (R78). -/
def State.placeCommand (s : State) (w : Word) : State :=
  { s with port := .bus (.write 0x000#14 (.four w)) :: s.port }

end Sys2Proof.Machine
end

