-- ==== Sys2Proof/Machine/Step.lean ====
section
/-! DEFINITION. One step: one event at the block's port (R5: "Each transaction is one step"). -/

namespace Sys2Proof.Machine

/-- One step of the block. -/
def step (s : State) : Host.Outcome State Fault Refusal := s.serveNext

/-- `s` with the command word `w` (its bits above `nbits` being 0) as the very next transaction, a write to CMD.
The block fetches nothing (R21, R79): a program comes to run by its commands arriving at the port (log 4). -/
def State.withFetchWord (s : State) (nbits w : Nat) : State := s.placeCommand (BitVec.ofNat 32 (w % 2 ^ nbits))

end Sys2Proof.Machine
end

