-- ==== Sys2Proof/Machine/HostProgram.lean ====
section
/-! DEFINITION. Host transactions and pseudo-instructions (R108 to R110): what a line of a host program puts at the
port. They are host notation, outside the block's state (R21, R222); nothing in a step uses them but the byte writes
of the HMAC step. -/

namespace Sys2Proof.Machine

/-- `WR REG, v` (R109). -/
def hostWr (r : Reg) (v : Word) : Transaction := .write (BitVec.ofNat 14 r.offset) (.four v)

/-- `RD REG` (R109). -/
def hostRd (r : Reg) : Transaction := .read (BitVec.ofNat 14 r.offset) .four

/-- `WRB WIN[i], v` (R109). An offset of 0x4000 or more, which the spec leaves open, is taken mod 2^14. DESIGN
CHOICE, log 14. -/
def hostWrb (b : Buffer) (i : Nat) (v : Byte) : Transaction := .write (BitVec.ofNat 14 (b.base + i)) (.one v)

/-- `RDB WIN[i]` (R109). An offset of 0x4000 or more, which the spec leaves open, is taken mod 2^14. DESIGN CHOICE,
log 14. -/
def hostRdb (b : Buffer) (i : Nat) : Transaction := .read (BitVec.ofNat 14 (b.base + i)) .one

/-- A command line: `WR CMD, <word>` (R108). -/
def hostCommand (i : Instr) : Transaction := hostWr .cmd (encode i)

/-- `LOADIN <bytes>` (R110). More bytes than reach offset 0x3FFF: see `windowWrites`, log 14. -/
def hostLoadIn (bs : List Byte) : List Transaction :=
  windowWrites .inBuf 0 bs ++ [hostWr .inLen (BitVec.ofNat 32 bs.length)]

/-- `LOADALPHA <bytes>` (R110). More bytes than reach offset 0x3FFF: see `windowWrites`, log 14. -/
def hostLoadAlpha (bs : List Byte) : List Transaction :=
  windowWrites .alpha 0 bs ++ [hostWr .alphaLen (BitVec.ofNat 32 bs.length)]

/-- `SETTIME t` (R110): the low half first. -/
def hostSetTime (t : BitVec 64) : List Transaction :=
  [hostWr .timeLo (t.extractLsb' 0 32), hostWr .timeHi (t.extractLsb' 32 32)]

/-- `SETCTR c` (R110): the low half first. -/
def hostSetCtr (c : BitVec 64) : List Transaction :=
  [hostWr .ctrLo (c.extractLsb' 0 32), hostWr .ctrHi (c.extractLsb' 32 32)]

/-- `PUTDIGEST <20 bytes>` (R110). -/
def hostPutDigest (d : Vector Byte 20) : List Transaction := windowWrites .digest 0 d.toList

/-- `CLRERR` (R110). -/
def hostClrErr : List Transaction := [hostWr .status 0x00000100#32]

/-- `READOUT` (R110), for the length the host reads from OUT_LEN. -/
def hostReadOut (outLen : Nat) : List Transaction := hostRd .outLen :: (List.range outLen).map (hostRdb .outBuf)

/-- `READCODE` (R110), for the length the host reads from CODE_LEN. -/
def hostReadCode (codeLen : Nat) : List Transaction := hostRd .codeLen :: (List.range codeLen).map (hostRdb .codeBuf)

/-- `HMAC` (R110): the transactions of the step, for the key and the message the host reads. -/
def hostHmac (key message : List Byte) : List Transaction :=
  hostReadOut key.length ++ (List.range 8).map (hostRdb .msg) ++ hostPutDigest (Config.hmacSha1 key message)

/-- `MemRead` as a host master issues it, at a bus address; none if the address is not the block's (R60, R61, log 10). -/
def hostReadAt (p : Params) (address : Nat) (size : AccessSize) : Option Transaction :=
  (p.offsetOf address).map (fun off => .read off size)

/-- `MemWrite` as a host master issues it, at a bus address; none if the address is not the block's (R60, R61, log 10). -/
def hostWriteAt (p : Params) (address : Nat) (data : WriteData) : Option Transaction :=
  (p.offsetOf address).map (fun off => .write off data)

/-- The block with a line of a host program arriving after what waits at its port. -/
def State.arrive (s : State) (ts : List Transaction) : State := { s with port := s.port ++ ts.map PortEvent.bus }

end Sys2Proof.Machine
end

