-- ==== Sys2Proof/Safety.lean ====
section
/-! DEFINITION. What claims say of states and steps: the invariant of the block and a valid configuration (R28). A
safe run needs no definition of its own: no step stops (R230, R239). -/

namespace Sys2Proof.Machine

/-- A configuration that satisfies every check of R134 but the one on ALPHA_LEN, which is gone once CFG has run
(R28): a width from 1 to 8, `2^n` symbols with distinct keys, a pad character for group padding, and a pad character
that is no symbol. -/
def validCodec (c : CfgReg) (syms : List Byte) : Prop :=
  1 ≤ c.n.toNat ∧ c.n.toNat ≤ 8 ∧ syms.length = 2 ^ c.n.toNat ∧
  (syms.map (charKey c.ci)).Nodup ∧
  (c.pg = true → c.pe = true) ∧
  (c.pe = true → charKey c.ci c.pad ∉ syms.map (charKey c.ci))

/-- The CFG invariant (R28): a configuration with VALID = 1 and the entries ACTIVE_ALPHA[0..2^N), all of them
written, are valid together; with VALID = 0 every field is 0. -/
def cfgInv (c : CfgReg) (table : Memory) : Prop :=
  (c.valid = true → ∃ syms, validCodec c syms ∧ ∀ v, v < 2 ^ c.n.toNat → table.byteAt v = syms[v]?) ∧
  (c.valid = false → c = CfgReg.cleared)

/-- Every listed address belongs to a byte window of the map (R62). -/
def memMapped (p : Params) (m : Memory) : Prop :=
  ∀ a, m.byteAt a ≠ none → ∃ b i, locate p a = some (.byte b i)

/-- Every listed entry of ACTIVE_ALPHA is one of its 256 (R29). -/
def tableBounded (m : Memory) : Prop := ∀ v, m.byteAt v ≠ none → v < 256

/-- The bytes OUT_BUF[0..OUT_LEN) have been written (R34). -/
def outWritten (m : Memory) (len : Nat) : Prop := ∀ i, i < len → m.byteAt (Buffer.outBuf.base + i) ≠ none

/-- The invariant of the block: storage in its canonical form and inside the map, the CFG invariant (R28), CODE_LEN
at least 6 (R36), OUT_LEN within OUT_BUF and its bytes written (R34, R35), ERRINFO 0 unless the last command failed
with E_BADSYM (R26). -/
structure State.Inv (s : State) : Prop where
  mem_wf : s.mem.wf
  mem_mapped : memMapped s.params s.mem
  table_wf : s.activeAlpha.wf
  table_bounded : tableBounded s.activeAlpha
  cfg_inv : cfgInv s.cfg s.activeAlpha
  code_len : 6 ≤ s.codeLen.toNat
  out_len : s.outLen.toNat ≤ s.outCap
  out_written : outWritten s.mem s.outLen.toNat
  err_info : s.errCode ≠ .badSym → s.errInfo = 0#16

end Sys2Proof.Machine
end

