-- ==== Sys2Proof/Certificates/Slice0/Obligations.lean ====
section
/-! DEFINITION. The statements for the provers, one `def Obligations.<Name> : Prop` each; before them, in namespace
`Sys2Proof.Spec`, the spec's own formulas, written again from its rules and not from the model, which the
statements compare the model with. -/

namespace Sys2Proof.Spec
open Sys2Proof.Machine

/-- A command ended without an error (R233): `t` is `u` with ERRCODE and ERRINFO 0 and nothing else changed. (`tick`
is the model's own counter of reading operations, log 1.) -/
def succeeded (u t : State) : Prop := t = { u with errCode := .ok, errInfo := 0#16, tick := t.tick }

/-- A command ended with `fail E(info)` (R14, R232, R233): `t` is `u` with STATUS and ERRINFO written and nothing
else changed. -/
def failed (u : State) (e : ErrCode) (info : BitVec 16) (t : State) : Prop :=
  t = { u with errCode := e, errInfo := info, anyErr := true, tick := t.tick }

/-- The OP values of format F0 (R105). -/
def opsF0 : List Byte := [0x00#8, 0x02#8, 0x10#8, 0x11#8, 0x12#8, 0x20#8, 0x21#8, 0x23#8, 0x24#8, 0x25#8, 0xFF#8]

/-- An illegal word (R106): an unassigned OP, or a must-be-0 field that is not 0. -/
def illegalWord (w : Word) : Prop :=
  let op := w.extractLsb' 0 8
  (op ≠ 0x01#8 ∧ op ≠ 0x22#8 ∧ op ∉ opsF0) ∨
  (op = 0x01#8 ∧ w.extractLsb' 24 8 ≠ 0#8) ∨
  (op = 0x22#8 ∧ w.extractLsb' 16 16 ≠ 0#16) ∨
  (op ∈ opsF0 ∧ w.extractLsb' 8 24 ≠ 0#24)

/-- `w` is the word of the command `i`, and every other word with its OP is illegal (R102 format F0, R106). -/
def onlyWord (i : Instr) (w : Word) : Prop :=
  decode w = .ok i ∧ ∀ v : Word, v.extractLsb' 0 8 = w.extractLsb' 0 8 → v ≠ w → ∃ e, decode v = .error e

/-- Which codes a command can report (R231). -/
def codesOf : Instr → List ErrCode
  | .cfg _ _ _ _ _ _ => [.ok, .cfgN, .cfgAlen, .cfgDup, .cfgPad]
  | .enc => [.ok, .noCfg, .len, .ovf]
  | .dec => [.ok, .noCfg, .len, .badSym, .ovf]
  | .xfer => [.ok, .ovf]
  | .nop => [.ok]
  | .preset32 => [.ok]
  | .tstep => [.ok]
  | .ser => [.ok]
  | .setlen _ => [.ok]
  | .trunc => [.ok]
  | .fmt => [.ok]
  | .otp => [.ok]
  | .srst => [.ok]

/-- Whether the command is CFG. -/
def isCfg : Instr → Bool
  | .cfg _ _ _ _ _ _ => true
  | _ => false

/-- Whether the command writes CFG and ACTIVE_ALPHA (R49). -/
def writesCodec : Instr → Bool
  | .cfg _ _ _ _ _ _ => true
  | .preset32 => true
  | .srst => true
  | _ => false

/-- Whether the command is SETLEN. -/
def isSetlen : Instr → Bool
  | .setlen _ => true
  | _ => false

/-- Which buffer a command writes (R49, "written by"). -/
def writesBuffer (i : Instr) (b : Buffer) : Prop :=
  (i = .ser ∧ b = .msg) ∨ ((i = .fmt ∨ i = .otp) ∧ b = .codeBuf) ∨ (i = .xfer ∧ b = .inBuf) ∨
  ((i = .enc ∨ i = .dec) ∧ b = .outBuf)

/-- ALPHA[v], IN_BUF[i] in DEC's second pass, and so on: the byte a command reads from a buffer. -/
def bufByte (s : State) (pass : Nat) (b : Buffer) (i : Nat) : Byte := s.storage pass (b.base + i)

/-- `key` of R134. -/
def key (ci : Bool) (c : Byte) : Byte := if ci then fold c else c

/-- Bit `j` of `bits(B)` (R12). -/
def streamBit (B : Nat → Byte) (j : Nat) : Nat := ((B (j / 8)).toNat >>> (7 - j % 8)) % 2

/-- `group(s, p, w)` of the stream `bits(B)` (R11). -/
def streamGroup (B : Nat → Byte) (p w : Nat) : Nat := ∑ b ∈ Finset.range w, streamBit B (p + b) * 2 ^ (w - 1 - b)

/-- The block length `B(n) = lcm(8, n) / n` (R136). -/
def blockLength (n : Nat) : Nat := Nat.lcm 8 n / n

/-- `Lbody` (R138). -/
def bodyLength (n k : Nat) (rp : Bool) : Nat := (8 * k) / n + (if rp = true ∧ (8 * k) % n ≠ 0 then 1 else 0)

/-- OUT_LEN of ENC (R138). -/
def encodedLength (n k : Nat) (rp pg : Bool) : Nat :=
  if pg then blockLength n * ((bodyLength n k rp + blockLength n - 1) / blockLength n) else bodyLength n k rp

/-- OUT_LEN of DEC (R154). -/
def decodedLength (n len : Nat) : Nat := (n * len) / 8 + (if (n * len) % 8 ≥ n then 1 else 0)

/-- `len` symbols of the input of DEC are left when the pads are stripped (R150, R151). -/
def stripped (s : State) (len : Nat) : Prop :=
  len ≤ s.inLen.toNat ∧
  (s.cfg.pe = false → len = s.inLen.toNat) ∧
  (s.cfg.pe = true → (∀ i, len ≤ i → i < s.inLen.toNat → bufByte s 0 .inBuf i = s.cfg.pad) ∧
    (len = 0 ∨ bufByte s 0 .inBuf (len - 1) ≠ s.cfg.pad))

/-- `v` is a value of symbol `i` of the input of DEC: `match(IN_BUF[i], sym(v))` (R132, R152). -/
def denotes (s : State) (v i : Nat) : Prop :=
  v < 2 ^ s.cfg.n.toNat ∧
  (if s.cfg.ci then fold (bufByte s 1 .inBuf i) = fold (s.symbol v) else bufByte s 1 .inBuf i = s.symbol v)

/-- Bit `q` of the decoded stream: the values as `n` bits each, then zeros (R150). -/
def decodedBit (n len : Nat) (v : Nat → Nat) (q : Nat) : Nat :=
  if q < n * len then (v (q / n) / 2 ^ (n - 1 - q % n)) % 2 else 0

/-- The value of a register on the bus, as the field tables of 10_state.md give it. -/
def regValue (s : State) : Reg → Nat
  | .cmd => 0
  | .status => s.errCode.code.toNat + 256 * s.anyErr.toNat + 512 * s.cfg.valid.toNat
  | .errInfo => s.errInfo.toNat
  | .cfg => s.cfg.n.toNat + 16 * s.cfg.ci.toNat + 32 * s.cfg.rp.toNat + 64 * s.cfg.pg.toNat + 128 * s.cfg.pe.toNat +
      256 * s.cfg.pad.toNat + 65536 * s.cfg.valid.toNat
  | .alphaLen => s.alphaLen.toNat
  | .inLen => s.inLen.toNat
  | .outLen => s.outLen.toNat
  | .codeLen => s.codeLen.toNat
  | .timeLo => s.time.toNat % 2 ^ 32
  | .timeHi => s.time.toNat / 2 ^ 32
  | .ctrLo => s.ctr.toNat % 2 ^ 32
  | .ctrHi => s.ctr.toNat / 2 ^ 32
  | .tval => s.tval.toNat
  | .toff => s.toff.toNat

/-- The unmapped offsets (R65, R66). -/
def unmapped (p : Params) (off : Nat) : Prop :=
  (0x038 ≤ off ∧ off ≤ 0x0FF) ∨ (0x214 ≤ off ∧ off ≤ 0x21F) ∨ (0x228 ≤ off ∧ off ≤ 0x2FF) ∨
  (0x400 ≤ off ∧ off ≤ 0xFFF) ∨ 0x3000 ≤ off ∨
  (0x1000 + p.inCap.val ≤ off ∧ off < 0x2000) ∨ (0x2000 + p.outCap.val ≤ off ∧ off < 0x3000)

/-- `s` after a transaction with SLVERR: nothing changed (R60). -/
def afterSlverr (s : State) (rest : List PortEvent) : State :=
  { s with port := rest, response := some { resp := .slverr, rdata := some 0#64 } }

/-- The transaction at the port got OKAY and nothing changed (R67). -/
def ignored (s : State) (rest : List PortEvent) : Prop :=
  ∃ t r, step s = .next t ∧ t = { s with port := rest, response := some r } ∧ r.resp = .okay

/-- `t` is `s` after a pin reset (R260): reset registers, no storage known, the port and the parameters as before. -/
def powered (s t : State) : Prop :=
  t = { toBlock := Block.reset, port := s.port, response := none, params := s.params, tick := t.tick, resets := t.resets }

end Sys2Proof.Spec

open Sys2Proof Sys2Proof.Machine Sys2Proof.Spec

/-! ### Encoding -/

/-- R101 to R105, R112: the decoder reads back every command with an encoding, operand for operand. -/
def Obligations.DecodeOfEncodeIsTheCommand : Prop :=
  ∀ i : Instr, i.wellFormed = true → decode (encode i) = .ok i

/-- R112: a word the decoder accepts is the word of the command it gives, and that command has an encoding: no bit of
the word is dropped. -/
def Obligations.EncodeOfDecodeIsTheWord : Prop :=
  ∀ (w : Word) (i : Instr), decode w = .ok i → i.wellFormed = true ∧ encode i = w

/-- R105: the decoder gives a row's command exactly for the words that match the row, and no word matches two rows. -/
def Obligations.DecoderFollowsTheOpcodeMap : Prop :=
  (∀ r ∈ opcodeMap, ∀ w : Word, r.matches w = true ↔ ∃ i, decode w = .ok i ∧ i.mnemonic = r.mnemonic) ∧
  opcodeMap.Pairwise (fun r q => ∀ w : Word, ¬ (r.matches w = true ∧ q.matches w = true))

/-- R106: which words are illegal, 243 OP values being unassigned, and that executing one fails with E_ILLEGAL and changes nothing but STATUS and
ERRINFO. -/
def Obligations.IllegalWordsFailWithEIllegal : Prop :=
  ∀ (w : Word) (s : State),
    ((∃ e, decode w = .error e) ↔ illegalWord w) ∧
    (illegalWord w → ∃ t, execWord w s = .next t ∧ failed s .illegal 0#16 t) ∧
    ((List.range 256).filter (fun x => decide (BitVec.ofNat 8 x ∉ 0x01#8 :: 0x22#8 :: opsF0))).length = 243

/-- R105, R108 and 95_test_vectors.md: words written out in the spec decode to the commands they stand for. -/
def Obligations.SpecWordsDecode : Prop :=
  decode 0x003DB501#32 = .ok (.cfg 5 true true false true 0x3D#8) ∧
  decode 0x003DE301#32 = .ok (.cfg 3 false true true true 0x3D#8) ∧
  decode 0x00000822#32 = .ok (.setlen 8#8) ∧
  decode 0x00000011#32 = .ok .dec ∧
  decode 0x00000025#32 = .ok .otp ∧
  decode 0x000000FF#32 = .ok .srst ∧
  decode 0x01000501#32 = .error (.reservedBits 0x01#8) ∧
  decode 0x00000026#32 = .error (.unassignedOp 0x26#8)

/-! ### The step -/

/-- R78: a size-4 write of any word to CMD makes the step what the command engine does with that word, on the state
whose port has the write taken off; around it only the response is set, and it is OKAY whether the command succeeds or
fails. A word that decodes to `i` is `exec i`; an illegal word fails with E_ILLEGAL (R106, R233). -/
def Obligations.StepRunsTheDecodedCommand : Prop :=
  ∀ (s : State) (rest : List PortEvent) (w : Word),
    s.port = .bus (.write 0x000#14 (.four w)) :: rest →
    ∃ t, execWord w { s with port := rest } = .next t ∧
      step s = .next { t with response := some { resp := .okay, rdata := none } } ∧
      (∀ i, decode w = .ok i → exec i { s with port := rest } = .next t) ∧
      (∀ e, decode w = .error e → failed { s with port := rest } .illegal 0#16 t)

/-- R230, R239: the block never stops: every step gives a next state; with nothing at the port the state is held
(R247; log 5 for what a step is then). -/
def Obligations.EveryStepGoesOn : Prop :=
  ∀ s : State, (∃ t, step s = .next t) ∧ (s.port = [] → step s = .next s)

/-! ### Reset and invariants -/

/-- R23: every register right after reset, as the bus reads it, holds the value of the reset column. -/
def Obligations.ResetGivesTheRegistersTheirResetValues : Prop :=
  ∀ r : Reg, State.reset.regRead r = if r = .codeLen then 6#32 else 0#32

/-- The invariant holds after reset (derived; the contents of storage, of which nothing is listed, are log 1's). -/
def Obligations.ResetMeetsTheInvariant : Prop := State.reset.Inv

/-- R26, R28, R34, R36, R62: from every state that meets it, whatever the event at the port, a step gives a state that
meets the invariant: canonical storage inside the map, a valid configuration or a cleared one, CODE_LEN at least 6,
OUT_LEN within OUT_BUF and its bytes written, ERRINFO 0 unless the last command failed with E_BADSYM. -/
def Obligations.EveryStepKeepsTheInvariant : Prop :=
  ∀ s t : State, s.Inv → step s = .next t → t.Inv

/-- R6: the parameters are no state: no step changes them. -/
def Obligations.NoStepChangesTheParameters : Prop :=
  ∀ s t : State, step s = .next t → t.params = s.params

/-- R260: a pin reset gives every register its reset value and leaves no byte of storage known; what waits at the
port stays there. -/
def Obligations.PinResetGivesTheResetState : Prop :=
  ∀ (s : State) (rest : List PortEvent), s.port = .pinReset :: rest →
    ∃ t, step s = .next t ∧ powered { s with port := rest } t ∧
      (∀ r : Reg, t.regRead r = if r = .codeLen then 6#32 else 0#32) ∧
      (∀ a, t.mem.byteAt a = none) ∧ (∀ v, t.activeAlpha.byteAt v = none)

/-- R262: a reset asserted during a CMD write takes effect before the command or after it. -/
def Obligations.ResetDuringACommandIsBeforeOrAfterIt : Prop :=
  ∀ (s : State) (rest : List PortEvent) (w : Word), s.port = .resetDuringCmd w :: rest →
    ∃ t u, step s = .next t ∧ execWord w { s with port := rest } = .next u ∧
      (powered { s with port := rest } t ∨ powered u t)

/-! ### STATUS and ERRINFO -/

/-- R25: the layout of STATUS, BUSY and the reserved bits reading 0, and that a write changes only ANYERR and only
when bit 8 is 1. -/
def Obligations.StatusLayoutAndWriteOneToClear : Prop :=
  ∀ (s : State),
    (s.regRead .status).toNat = s.errCode.code.toNat + 256 * s.anyErr.toNat + 512 * s.cfg.valid.toNat ∧
    (∀ (rest : List PortEvent) (v : Word), s.port = .bus (.write 0x004#14 (.four v)) :: rest →
      step s = .next { s with
        port := rest
        response := some { resp := .okay, rdata := none }
        anyErr := if v.getLsbD 8 then false else s.anyErr })

/-- R233: what the command engine writes after every command word, illegal words included: ERRCODE and ERRINFO,
whatever they held before, ERRINFO 0 unless the error is E_BADSYM; and ANYERR 1 if there is an error. -/
def Obligations.EveryCommandWritesStatusAndErrInfo : Prop :=
  ∀ (s : State) (w : Word), ∃ t, execWord w s = .next t ∧
    (∀ (e : ErrCode) (any : Bool) (info : BitVec 16), ∃ u,
      execWord w { s with errCode := e, anyErr := any, errInfo := info } = .next u ∧
      u.errCode = t.errCode ∧ u.errInfo = t.errInfo) ∧
    (t.errCode ≠ .badSym → t.errInfo = 0#16) ∧
    (t.errCode ≠ .ok → t.anyErr = true) ∧
    (t.errCode = .ok → decode w ≠ .ok .srst → t.anyErr = s.anyErr)

/-- R231: the ten codes are the numbers 0 to 9, each its own, and a command reports only the codes the table names
for it. -/
def Obligations.CommandsReportOnlyTheirCodes : Prop :=
  ([ErrCode.ok, .illegal, .cfgN, .cfgAlen, .cfgDup, .cfgPad, .noCfg, .len, .badSym, .ovf].map
    (fun e => e.code.toNat) = List.range 10) ∧
  (∀ e : ErrCode, e.code.toNat < 10) ∧
  ∀ (i : Instr) (s t : State), exec i s = .next t → t.errCode ∈ codesOf i

/-- R232: a failing command writes nothing but STATUS and ERRINFO; CFG also clears CFG. -/
def Obligations.FailureIsAtomic : Prop :=
  ∀ (i : Instr) (s t : State), exec i s = .next t → t.errCode ≠ .ok →
    failed { s with cfg := if isCfg i then CfgReg.cleared else s.cfg } t.errCode t.errInfo t

/-- R234: any failing command sets ANYERR, and only a STATUS write with bit 8, SRST or a reset clears it. -/
def Obligations.AnyErrIsSticky : Prop :=
  (∀ (w : Word) (s t : State), execWord w s = .next t → t.errCode ≠ .ok → t.anyErr = true) ∧
  ∀ (s t : State) (ev : PortEvent) (rest : List PortEvent), s.port = ev :: rest → step s = .next t →
    s.anyErr = true → t.anyErr = false →
    (∃ v : Word, ev = .bus (.write 0x004#14 (.four v)) ∧ v.getLsbD 8 = true) ∨
    (∃ w : Word, ev = .bus (.write 0x000#14 (.four w)) ∧ decode w = .ok .srst) ∨
    ev = .pinReset ∨ (∃ w : Word, ev = .resetDuringCmd w)

/-- R49, "written by": what a command may change. A command not listed for a piece of state leaves it alone, byte for
byte in storage; no command touches the port, the response, the parameters or the count of resets. -/
def Obligations.CommandsWriteOnlyTheirState : Prop :=
  ∀ (i : Instr) (s t : State), exec i s = .next t →
    (t.cfg ≠ s.cfg → writesCodec i = true) ∧
    (t.activeAlpha ≠ s.activeAlpha → writesCodec i = true ∧ i ≠ .srst) ∧
    (t.alphaLen ≠ s.alphaLen → i = .srst) ∧
    (t.inLen ≠ s.inLen → i = .xfer ∨ i = .srst) ∧
    (t.outLen ≠ s.outLen → i = .enc ∨ i = .dec ∨ i = .srst) ∧
    (t.time ≠ s.time → i = .srst) ∧
    (t.ctr ≠ s.ctr → i = .tstep ∨ i = .srst) ∧
    (t.tval ≠ s.tval ∨ t.toff ≠ s.toff → i = .trunc ∨ i = .otp ∨ i = .srst) ∧
    (t.codeLen ≠ s.codeLen → isSetlen i = true ∨ i = .srst) ∧
    (∀ a, t.mem.byteAt a ≠ s.mem.byteAt a →
      ∃ b j, a = Buffer.base b + j ∧ j < Buffer.size s.params b ∧ writesBuffer i b) ∧
    t.port = s.port ∧ t.response = s.response ∧ t.params = s.params ∧ t.resets = s.resets

/-- R28, R29: the codec is immutable but for CFG, PRESET32, SRST and reset: no other event changes CFG or
ACTIVE_ALPHA. -/
def Obligations.OnlyCfgPresetAndResetsChangeTheCodec : Prop :=
  ∀ (s t : State) (ev : PortEvent) (rest : List PortEvent), s.port = ev :: rest → step s = .next t →
    (t.cfg ≠ s.cfg ∨ t.activeAlpha ≠ s.activeAlpha) →
    (∃ (w : Word) (i : Instr), ev = .bus (.write 0x000#14 (.four w)) ∧ decode w = .ok i ∧ writesCodec i = true) ∨
    ev = .pinReset ∨ (∃ w : Word, ev = .resetDuringCmd w)

/-- R44: nothing reads a flag but ENC and DEC, which read VALID: what a command does is the same whatever ERRCODE,
ANYERR and ERRINFO hold, and for every other command whatever VALID holds. -/
def Obligations.NothingReadsAFlagButValid : Prop :=
  (∀ (i : Instr) (s t u : State) (e : ErrCode) (any : Bool) (info : BitVec 16), exec i s = .next t →
    exec i { s with errCode := e, anyErr := any, errInfo := info } = .next u → u = { t with anyErr := u.anyErr }) ∧
  (∀ (i : Instr) (s t u : State) (v : Bool), i ≠ .enc → i ≠ .dec → exec i s = .next t →
    exec i { s with cfg := { s.cfg with valid := v } } = .next u → u = { t with cfg := u.cfg })

/-! ### Control commands -/

/-- R220: NOP writes ERRCODE and ERRINFO and does nothing else; ANYERR is kept. -/
def Obligations.NopOnlyClearsErrCode : Prop :=
  onlyWord .nop 0x00000000#32 ∧
  ∀ s : State, ∃ t, exec .nop s = .next t ∧ succeeded s t

/-- R46, R221, R261: SRST gives every register the value reset gives it and keeps every byte of every buffer. -/
def Obligations.SrstResetsRegistersAndKeepsBuffers : Prop :=
  onlyWord .srst 0x000000FF#32 ∧
  ∀ s : State, ∃ t, exec .srst s = .next t ∧
    (∀ r : Reg, t.regRead r = State.reset.regRead r) ∧
    succeeded { s with cfg := CfgReg.cleared, alphaLen := 0#9, inLen := 0#16, outLen := 0#16, codeLen := 6#8,
                       time := 0#64, ctr := 0#64, tval := 0#31, toff := 0#4, anyErr := false } t

/-! ### Codec commands -/

/-- R131: `fold` maps 'a'..'z' to 'A'..'Z' and nothing else. -/
def Obligations.FoldMapsLowerCaseLettersAlone : Prop :=
  ∀ c : Byte, (0x61 ≤ c.toNat ∧ c.toNat ≤ 0x7A → (fold c).toNat = c.toNat - 0x20) ∧
    (¬ (0x61 ≤ c.toNat ∧ c.toNat ≤ 0x7A) → fold c = c)

/-- R134: the checks of CFG in their order, each with its code and ERRINFO = 0; with R133, the failing CFG leaves CFG
cleared and writes nothing else. ALPHA[v] is the byte CFG reads there. -/
def Obligations.CfgReportsTheFirstFailingCheck : Prop :=
  ∀ (n : Nat) (ci rp pg pe : Bool) (pad : Byte) (s : State),
    let a := fun v => bufByte s 0 .alpha v
    let width := 1 ≤ n ∧ n ≤ 8
    let length := s.alphaLen.toNat = 2 ^ n
    let padded := ¬ (pg = true ∧ pe = false)
    let distinct := ∀ v u, v < 2 ^ n → u < 2 ^ n → v ≠ u → key ci (a v) ≠ key ci (a u)
    let padFree := pe = true → ∀ v, v < 2 ^ n → key ci pad ≠ key ci (a v)
    let fails := fun e => ∃ t, exec (.cfg n ci rp pg pe pad) s = .next t ∧
      failed { s with cfg := CfgReg.cleared } e 0#16 t
    (¬ width → fails .cfgN) ∧
    (width → ¬ length → fails .cfgAlen) ∧
    (width → length → ¬ padded → fails .cfgPad) ∧
    (width → length → padded → ¬ distinct → fails .cfgDup) ∧
    (width → length → padded → distinct → ¬ padFree → fails .cfgPad)

/-- R133: when every check of R134 holds, CFG latches its fields, sets VALID and copies ALPHA[0..2^N) to ACTIVE_ALPHA;
the other entries, and everything else, stay. That the byte latched is the byte checked, for a byte of ALPHA never
written and STABLE_UNINIT = false as well, is the model's choice: log 3, DEDUCED from R28. -/
def Obligations.CfgLatchesTheCodec : Prop :=
  ∀ (n : Nat) (ci rp pg pe : Bool) (pad : Byte) (s : State),
    (1 ≤ n ∧ n ≤ 8) → s.alphaLen.toNat = 2 ^ n → ¬ (pg = true ∧ pe = false) →
    (∀ v u, v < 2 ^ n → u < 2 ^ n → v ≠ u → key ci (bufByte s 0 .alpha v) ≠ key ci (bufByte s 0 .alpha u)) →
    (pe = true → ∀ v, v < 2 ^ n → key ci pad ≠ key ci (bufByte s 0 .alpha v)) →
    ∃ t, exec (.cfg n ci rp pg pe pad) s = .next t ∧ t.cfg.n.toNat = n ∧
      succeeded { s with cfg := { n := t.cfg.n, ci := ci, rp := rp, pg := pg, pe := pe, pad := pad, valid := true }
                         activeAlpha := t.activeAlpha } t ∧
      (∀ v, v < 2 ^ n → t.activeAlpha.byteAt v = some (bufByte s 0 .alpha v)) ∧
      (∀ v, 2 ^ n ≤ v → t.activeAlpha.byteAt v = s.activeAlpha.byteAt v)

/-- R133, corner cases, with the order of R134: CFG with 8-bit symbols and CI = 1 fails in every state: with
E_CFG_DUP, whatever ALPHA holds, once ALPHA_LEN and the padding pass their checks, and with those checks' codes before. -/
def Obligations.CaseInsensitiveByteCodecIsNeverAccepted : Prop :=
  ∀ (rp pg pe : Bool) (pad : Byte) (s : State), ∃ t, exec (.cfg 8 true rp pg pe pad) s = .next t ∧
    failed { s with cfg := CfgReg.cleared }
      (if s.alphaLen.toNat ≠ 256 then .cfgAlen else if pg = true ∧ pe = false then .cfgPad else .cfgDup) 0#16 t

/-- R135: PRESET32 latches the base32 codec, never fails, touches nothing else, and what it latches satisfies every
check of R134. -/
def Obligations.Preset32LatchesBase32 : Prop :=
  onlyWord .preset32 0x00000002#32 ∧
  ∀ s : State, ∃ t, exec .preset32 s = .next t ∧ t.regRead .cfg = 0x00013DB5#32 ∧
    succeeded { s with cfg := t.cfg, activeAlpha := t.activeAlpha } t ∧
    (∀ v, v < 32 → t.activeAlpha.byteAt v = some (BitVec.ofNat 8 (if v < 26 then 0x41 + v else 0x32 + (v - 26)))) ∧
    (∀ v, 32 ≤ v → t.activeAlpha.byteAt v = s.activeAlpha.byteAt v) ∧
    cfgInv t.cfg t.activeAlpha

/-- R136: the block length of every symbol width. -/
def Obligations.BlockLengthsAreTheSpecs : Prop :=
  (∀ n, 1 ≤ n → n ≤ 8 → blockLen n = Nat.lcm 8 n / n) ∧
  [1, 2, 3, 4, 5, 6, 7, 8].map blockLen = [8, 4, 8, 2, 8, 4, 8, 1]

/-- R142: the error checks of ENC, in order; nothing but STATUS and ERRINFO is written. -/
def Obligations.EncFailsInThisOrder : Prop :=
  ∀ s : State, cfgInv s.cfg s.activeAlpha →
    (s.cfg.valid = false → ∃ t, exec .enc s = .next t ∧ failed s .noCfg 0#16 t) ∧
    (s.cfg.valid = true → s.inLen.toNat > s.inCap → ∃ t, exec .enc s = .next t ∧ failed s .len 0#16 t) ∧
    (s.cfg.valid = true → s.inLen.toNat ≤ s.inCap →
      encodedLength s.cfg.n.toNat s.inLen.toNat s.cfg.rp s.cfg.pg > s.outCap →
      ∃ t, exec .enc s = .next t ∧ failed s .ovf 0#16 t)

/-- R137, R139, R140: ENC writes, for each whole group of n bits of the input, its symbol; for a final partial group,
if RP = 1, the symbol of its bits left-justified; then, if PG = 1, pad characters up to a multiple of the block length;
and OUT_LEN. No other byte and no other register changes. -/
def Obligations.EncWritesTheSymbolString : Prop :=
  ∀ s : State, cfgInv s.cfg s.activeAlpha → s.cfg.valid = true → s.inLen.toNat ≤ s.inCap →
    let n := s.cfg.n.toNat
    let k := s.inLen.toNat
    let B := fun i => bufByte s 0 .inBuf i
    let whole := (8 * k) / n
    let r := (8 * k) % n
    let body := bodyLength n k s.cfg.rp
    let len := encodedLength n k s.cfg.rp s.cfg.pg
    len ≤ s.outCap →
    ∃ t, exec .enc s = .next t ∧ t.outLen.toNat = len ∧
      succeeded { s with mem := t.mem, outLen := t.outLen } t ∧
      (∀ i, i < whole → t.mem.byteAt (0x2000 + i) = some (s.symbol (streamGroup B (i * n) n))) ∧
      (r ≠ 0 → s.cfg.rp = true →
        t.mem.byteAt (0x2000 + whole) = some (s.symbol (streamGroup B (whole * n) r * 2 ^ (n - r)))) ∧
      (∀ i, body ≤ i → i < len → t.mem.byteAt (0x2000 + i) = some s.cfg.pad) ∧
      (∀ a, (a < 0x2000 ∨ 0x2000 + len ≤ a) → t.mem.byteAt a = s.mem.byteAt a)

/-- R138: the output length of ENC; with PRESET32 it is ceil(8k/5), and 52 for 32 bytes. -/
def Obligations.EncodedLengthIsTheFormula : Prop :=
  ∀ s t : State, cfgInv s.cfg s.activeAlpha → exec .enc s = .next t → t.errCode = .ok →
    t.outLen.toNat = encodedLength s.cfg.n.toNat s.inLen.toNat s.cfg.rp s.cfg.pg ∧
    (s.cfg = presetCfg → t.outLen.toNat = (8 * s.inLen.toNat + 4) / 5 ∧ (s.inLen.toNat = 32 → t.outLen.toNat = 52))

/-- R152, R155: the error checks of DEC, in order; E_BADSYM carries the lowest index of a symbol that denotes no
value; nothing but STATUS and ERRINFO is written. -/
def Obligations.DecFailsInThisOrder : Prop :=
  ∀ s : State,
    (s.cfg.valid = false → ∃ t, exec .dec s = .next t ∧ failed s .noCfg 0#16 t) ∧
    (s.cfg.valid = true → s.inLen.toNat > s.inCap → ∃ t, exec .dec s = .next t ∧ failed s .len 0#16 t) ∧
    (s.cfg.valid = true → s.inLen.toNat ≤ s.inCap → ∀ len i, stripped s len → i < len →
      (∀ j, j < i → ∃ v, denotes s v j) → (¬ ∃ v, denotes s v i) →
      ∃ t, exec .dec s = .next t ∧ t.errInfo.toNat = i ∧ failed s .badSym t.errInfo t) ∧
    (s.cfg.valid = true → s.inLen.toNat ≤ s.inCap → ∀ len, stripped s len →
      (∀ j, j < len → ∃ v, denotes s v j) → decodedLength s.cfg.n.toNat len > s.outCap →
      ∃ t, exec .dec s = .next t ∧ failed s .ovf 0#16 t)

/-- R150 to R154: DEC, on `len` symbols left of the pads that denote the values `v`, writes their bits as whole bytes,
a tail of at least one symbol's bits zero-filled to one more byte, a shorter tail dropped, and OUT_LEN. No other byte
and no other register changes. -/
def Obligations.DecWritesTheBytes : Prop :=
  ∀ (s : State) (len : Nat) (v : Nat → Nat), cfgInv s.cfg s.activeAlpha → s.cfg.valid = true →
    s.inLen.toNat ≤ s.inCap → stripped s len → (∀ i, i < len → denotes s (v i) i) →
    let n := s.cfg.n.toNat
    let m := decodedLength n len
    m ≤ s.outCap →
    ∃ t, exec .dec s = .next t ∧ t.outLen.toNat = m ∧
      succeeded { s with mem := t.mem, outLen := t.outLen } t ∧
      (∀ j, j < m → t.mem.byteAt (0x2000 + j) =
        some (BitVec.ofNat 8 (∑ b ∈ Finset.range 8, decodedBit n len v (8 * j + b) * 2 ^ (7 - b)))) ∧
      (∀ a, (a < 0x2000 ∨ 0x2000 + m ≤ a) → t.mem.byteAt a = s.mem.byteAt a)

/-- R154: the output length of DEC; for n = 8 it is the number of symbols and for n = 1 an eighth of it, rounded
up. -/
def Obligations.DecodedLengthIsTheFormula : Prop :=
  ∀ s t : State, exec .dec s = .next t → t.errCode = .ok →
    ∃ len, stripped s len ∧ t.outLen.toNat = decodedLength s.cfg.n.toNat len ∧
      (s.cfg.n = 8#4 → t.outLen.toNat = len) ∧ (s.cfg.n = 1#4 → t.outLen.toNat = (len + 7) / 8)

/-- R157: XFER copies OUT_BUF[0..OUT_LEN) to IN_BUF and sets IN_LEN, changing nothing else; it fails with E_OVF when
the output does not fit. -/
def Obligations.XferCopiesTheOutput : Prop :=
  onlyWord .xfer 0x00000012#32 ∧
  ∀ s : State,
    (s.outLen.toNat > s.inCap → ∃ t, exec .xfer s = .next t ∧ failed s .ovf 0#16 t) ∧
    (s.outLen.toNat ≤ s.inCap → ∃ t, exec .xfer s = .next t ∧
      succeeded { s with mem := t.mem, inLen := s.outLen } t ∧
      (∀ i, i < s.outLen.toNat → t.mem.byteAt (0x1000 + i) = some (bufByte s 0 .outBuf i)) ∧
      (∀ a, (a < 0x1000 ∨ 0x1000 + s.outLen.toNat ≤ a) → t.mem.byteAt a = s.mem.byteAt a))

/-- R156, the round-trip law, whole: ENC, then XFER, then DEC, in its four cases. B is the input ENC reads, k its
length and e the number of bits the whole groups leave over. -/
def Obligations.EncXferDecRoundTrip : Prop :=
  ∀ s s1 s2 s3 : State, cfgInv s.cfg s.activeAlpha → exec .enc s = .next s1 → s1.errCode = .ok →
    s1.outLen.toNat ≤ s.inCap → exec .xfer s1 = .next s2 → exec .dec s2 = .next s3 →
    let n := s.cfg.n.toNat
    let k := s.inLen.toNat
    let B := fun i => bufByte s 0 .inBuf i
    let e := (8 * k) % n
    s3.errCode = .ok ∧
    ((s.cfg.rp = true ∨ e = 0) → s3.outLen.toNat = k ∧ ∀ i, i < k → s3.mem.byteAt (0x2000 + i) = some (B i)) ∧
    (s.cfg.rp = false → e ≠ 0 → e ≤ 8 - n → s3.outLen.toNat = k ∧
      (∀ i, i < k - 1 → s3.mem.byteAt (0x2000 + i) = some (B i)) ∧
      s3.mem.byteAt (0x2000 + (k - 1)) = some (BitVec.ofNat 8 ((B (k - 1)).toNat / 2 ^ e * 2 ^ e)) ∧
      (s3.mem.byteAt (0x2000 + (k - 1)) = some (B (k - 1)) ↔ (B (k - 1)).toNat % 2 ^ e = 0)) ∧
    (s.cfg.rp = false → e > 8 - n → s3.outLen.toNat = k - 1 ∧
      ∀ i, i < k - 1 → s3.mem.byteAt (0x2000 + i) = some (B i))

/-- R266, R29: a byte written to ALPHA, or another ALPHA_LEN, changes nothing that ENC and DEC do. -/
def Obligations.StagingTableDoesNotReachEncAndDec : Prop :=
  ∀ (i : Instr) (s t u : State) (v : Nat) (x : Byte) (len : BitVec 9), i = .enc ∨ i = .dec → v < 256 →
    exec i s = .next t → exec i { s with mem := s.mem.writeByte (0x100 + v) x, alphaLen := len } = .next u →
    u.errCode = t.errCode ∧ u.errInfo = t.errInfo ∧ u.outLen = t.outLen ∧
    (∀ a, a ≠ 0x100 + v → u.mem.byteAt a = t.mem.byteAt a)

/-! ### OTP commands -/

/-- R180: TSTEP divides the 64-bit TIME by 30, exactly; nothing but CTR changes. -/
def Obligations.TstepDividesTheTimeByThirty : Prop :=
  onlyWord .tstep 0x00000020#32 ∧
  ∀ s : State, ∃ t, exec .tstep s = .next t ∧
    (t.regRead .ctrHi).toNat * 2 ^ 32 + (t.regRead .ctrLo).toNat =
      ((s.regRead .timeHi).toNat * 2 ^ 32 + (s.regRead .timeLo).toNat) / 30 ∧
    succeeded { s with ctr := t.ctr } t

/-- R181: SER writes CTR to MSG, most significant byte first; nothing else changes. -/
def Obligations.SerWritesTheCounterBigEndian : Prop :=
  onlyWord .ser 0x00000021#32 ∧
  ∀ s : State, ∃ t, exec .ser s = .next t ∧ succeeded { s with mem := t.mem } t ∧
    (∀ i, i < 8 → t.mem.byteAt (0x220 + i) = some (BitVec.ofNat 8 (s.ctr.toNat / 256 ^ (7 - i)))) ∧
    (∀ a, (a < 0x220 ∨ 0x228 ≤ a) → t.mem.byteAt a = s.mem.byteAt a)

/-- R182: SETLEN sets CODE_LEN to the immediate, and to 6 for an immediate below 6. -/
def Obligations.SetlenClampsToSix : Prop :=
  (∀ imm : Byte, decode (BitVec.ofNat 32 (imm.toNat * 256 + 0x22)) = .ok (.setlen imm)) ∧
  (∀ w : Word, w.extractLsb' 0 8 = 0x22#8 → w.extractLsb' 16 16 ≠ 0#16 → ∃ e, decode w = .error e) ∧
  ∀ (imm : Byte) (s : State), ∃ t, exec (.setlen imm) s = .next t ∧ t.codeLen.toNat = max 6 imm.toNat ∧
    succeeded { s with codeLen := t.codeLen } t

/-- R183: TRUNC takes the offset from the low four bits of DIGEST[19] and the 31 low bits of the big-endian number
there; nothing else changes. -/
def Obligations.TruncSelectsThirtyOneBits : Prop :=
  onlyWord .trunc 0x00000023#32 ∧
  ∀ s : State,
    let d := fun i => (bufByte s 0 .digest i).toNat
    let off := d 19 % 16
    ∃ t, exec .trunc s = .next t ∧ t.toff.toNat = off ∧
      t.tval.toNat = (d off * 2 ^ 24 + d (off + 1) * 2 ^ 16 + d (off + 2) * 2 ^ 8 + d (off + 3)) % 2 ^ 31 ∧
      succeeded { s with toff := t.toff, tval := t.tval } t

/-- R184: FMT writes CODE_LEN decimal digits of TVAL mod 10^CODE_LEN as ASCII to CODE_BUF, most significant first;
nothing else changes. -/
def Obligations.FmtWritesTheDecimalCode : Prop :=
  onlyWord .fmt 0x00000024#32 ∧
  ∀ s : State,
    let d := s.codeLen.toNat
    let c := s.tval.toNat % 10 ^ d
    ∃ t, exec .fmt s = .next t ∧ succeeded { s with mem := t.mem } t ∧
      (∀ j, j < d → t.mem.byteAt (0x300 + j) = some (BitVec.ofNat 8 (0x30 + (c / 10 ^ (d - 1 - j)) % 10))) ∧
      (∀ a, (a < 0x300 ∨ 0x300 + d ≤ a) → t.mem.byteAt a = s.mem.byteAt a)

/-- R184, R186: the code FMT writes is made of ASCII digits and reads back, as a decimal number, as TVAL mod
10^CODE_LEN; from ten digits on that is TVAL itself. -/
def Obligations.TheCodeReadsBackAsTheValue : Prop :=
  ∀ s t : State, exec .fmt s = .next t →
    ∃ digit : Nat → Nat, (∀ j, j < s.codeLen.toNat → digit j < 10 ∧
        t.mem.byteAt (0x300 + j) = some (BitVec.ofNat 8 (0x30 + digit j))) ∧
      ∑ j ∈ Finset.range s.codeLen.toNat, digit j * 10 ^ (s.codeLen.toNat - 1 - j) =
        s.tval.toNat % 10 ^ s.codeLen.toNat ∧
      (10 ≤ s.codeLen.toNat → s.tval.toNat % 10 ^ s.codeLen.toNat = s.tval.toNat)

/-- R185: OTP leaves what TRUNC and then FMT leave, and completes. -/
def Obligations.OtpIsTruncThenFmt : Prop :=
  onlyWord .otp 0x00000025#32 ∧
  ∀ s : State, ∃ t u v, exec .otp s = .next t ∧ exec .trunc s = .next u ∧ exec .fmt u = .next v ∧
    t = { v with tick := t.tick } ∧ succeeded { s with toff := t.toff, tval := t.tval, mem := t.mem } t

/-- R49, R185: what OTP computes depends on DIGEST and CODE_LEN alone: two states that agree in them get the same
TOFF, TVAL and code, whatever else they hold. -/
def Obligations.OtpDependsOnDigestAndCodeLengthAlone : Prop :=
  ∀ s s' t t' : State, (∀ i, i < 20 → bufByte s 0 .digest i = bufByte s' 0 .digest i) → s.codeLen = s'.codeLen →
    exec .otp s = .next t → exec .otp s' = .next t' →
    t.toff = t'.toff ∧ t.tval = t'.tval ∧
    (∀ j, j < s.codeLen.toNat → t.mem.byteAt (0x300 + j) = t'.mem.byteAt (0x300 + j))

/-! ### Bus transactions -/

/-- R62: the address map, both ways: an offset stands for a register exactly if it is that register's, and for byte
`i` of a window exactly if it is that byte's. -/
def Obligations.TheAddressMapIsTheSpecs : Prop :=
  ∀ (p : Params) (off : Nat),
    (∀ r : Reg, locate p off = some (.reg r) ↔ off = r.offset) ∧
    (∀ (b : Buffer) (i : Nat), locate p off = some (.byte b i) ↔ off = b.base + i ∧ i < b.size p) ∧
    (unmapped p off → locate p off = none)

/-- R65, R66: a transaction to an unmapped offset, of any size, gets SLVERR and has no effect. -/
def Obligations.UnmappedOffsetsGetSlverr : Prop :=
  ∀ (s : State) (rest : List PortEvent) (tr : Transaction), s.port = .bus tr :: rest → unmapped s.params tr.off →
    step s = .next (afterSlverr s rest)

/-- R63, R64: a register is accessed with size 4 at its own offset and a window byte with size 1; anything else there
gets SLVERR and has no effect. -/
def Obligations.WrongSizeOrAlignmentGetsSlverr : Prop :=
  ∀ (s : State) (rest : List PortEvent) (tr : Transaction), s.port = .bus tr :: rest →
    ((tr.off < 0x038 ∧ (tr.off % 4 ≠ 0 ∨ tr.size ≠ .four)) ∨
      (∃ (b : Buffer) (i : Nat), i < b.size s.params ∧ tr.off = b.base + i ∧ tr.size ≠ .one)) →
    step s = .next (afterSlverr s rest)

/-- R60, R236: every transaction is answered; the answer is OKAY exactly for a register or a window byte accessed with
its own size, command writes included, and SLVERR comes with rdata 0 and no change of state, not even of STATUS. -/
def Obligations.OkayExactlyForOwnOffsetAndSize : Prop :=
  ∀ (s : State) (rest : List PortEvent) (tr : Transaction), s.port = .bus tr :: rest →
    ∃ t r, step s = .next t ∧ t.response = some r ∧
      (r.resp = .okay ↔ (∃ q : Reg, tr.off = q.offset ∧ tr.size = .four) ∨
        (∃ (b : Buffer) (i : Nat), i < b.size s.params ∧ tr.off = b.base + i ∧ tr.size = .one)) ∧
      (r.resp = .slverr → t = afterSlverr s rest)

/-- R68 and the register tables of 10_state.md: a size-4 read of a register answers OKAY with its value, reserved bits
0, and changes nothing; CMD reads 0 and runs nothing. -/
def Obligations.RegisterReadsReturnTheirFields : Prop :=
  ∀ (s : State) (rest : List PortEvent) (r : Reg),
    s.port = .bus (.read (BitVec.ofNat 14 r.offset) .four) :: rest →
    step s = .next { s with
      port := rest
      response := some { resp := .okay, rdata := some (BitVec.ofNat 64 (regValue s r)) } }

/-- R48, R69, R74: a size-1 read of a window byte answers OKAY with the byte written there last; a byte never written
since the pin reset reads as INIT's value for it, or, with STABLE_UNINIT = false, as a fresh arbitrary byte (free
values, log 1). -/
def Obligations.WindowReadsReturnTheByte : Prop :=
  ∀ (s : State) (rest : List PortEvent) (b : Buffer) (i : Nat), i < b.size s.params →
    s.port = .bus (.read (BitVec.ofNat 14 (b.base + i)) .one) :: rest →
    ∃ t v, step s = .next t ∧ t.response = some { resp := .okay, rdata := some (BitVec.setWidth 64 v) } ∧
      (∀ x, s.mem.byteAt (b.base + i) = some x → v = x) ∧
      (s.mem.byteAt (b.base + i) = none → s.params.stableUninit = true → v = Config.initByte s.resets (b.base + i)) ∧
      (s.mem.byteAt (b.base + i) = none → s.params.stableUninit = false →
        v = Config.freshByte s.tick 0 (b.base + i))

/-- R69: no read has a side effect, and reading a location twice returns the same value, but for never-written storage
with STABLE_UNINIT = false. -/
def Obligations.ReadsChangeNothing : Prop :=
  ∀ (s : State) (off : BitVec 14) (size : AccessSize),
    (∀ rest, s.port = .bus (.read off size) :: rest →
      ∃ t, step s = .next t ∧ t = { s with port := rest, response := t.response, tick := t.tick }) ∧
    (∀ rest u t, s.port = .bus (.read off size) :: .bus (.read off size) :: rest → step s = .next u → step u = .next t →
      (s.params.stableUninit = true ∨ s.mem.byteAt off.toNat ≠ none ∨
        (∀ b i, locate s.params off.toNat ≠ some (.byte b i))) → t.response = u.response)

/-- R30, R32, R38, R39: a size-4 write to a read-write register stores its data: ALPHA_LEN its low 9 bits, IN_LEN its
low 16, TIME and CTR one half while the other half stays (R268). -/
def Obligations.RegisterWritesStoreTheirBits : Prop :=
  ∀ (s : State) (rest : List PortEvent) (r : Reg) (v : Word),
    r ∈ [Reg.alphaLen, .inLen, .timeLo, .timeHi, .ctrLo, .ctrHi] →
    s.port = .bus (.write (BitVec.ofNat 14 r.offset) (.four v)) :: rest →
    ∃ t, step s = .next t ∧
      t = { s with port := rest, response := some { resp := .okay, rdata := none },
                   alphaLen := t.alphaLen, inLen := t.inLen, time := t.time, ctr := t.ctr } ∧
      t.alphaLen.toNat = (if r = .alphaLen then v.toNat % 2 ^ 9 else s.alphaLen.toNat) ∧
      t.inLen.toNat = (if r = .inLen then v.toNat % 2 ^ 16 else s.inLen.toNat) ∧
      t.time.toNat = (if r = .timeLo then s.time.toNat / 2 ^ 32 * 2 ^ 32 + v.toNat
        else if r = .timeHi then v.toNat * 2 ^ 32 + s.time.toNat % 2 ^ 32 else s.time.toNat) ∧
      t.ctr.toNat = (if r = .ctrLo then s.ctr.toNat / 2 ^ 32 * 2 ^ 32 + v.toNat
        else if r = .ctrHi then v.toNat * 2 ^ 32 + s.ctr.toNat % 2 ^ 32 else s.ctr.toNat)

/-- R72, R110: SETTIME and SETCTR, two writes each, leave the 64-bit value given. -/
def Obligations.TwoHalfWritesSetTheWholeValue : Prop :=
  ∀ (s : State) (rest : List PortEvent) (x : BitVec 64),
    (s.port = (hostSetTime x).map PortEvent.bus ++ rest → ∃ u t, step s = .next u ∧ step u = .next t ∧
      t = { s with port := rest, response := t.response, time := x }) ∧
    (s.port = (hostSetCtr x).map PortEvent.bus ++ rest → ∃ u t, step s = .next u ∧ step u = .next t ∧
      t = { s with port := rest, response := t.response, ctr := x })

/-- R62, R70: a size-1 write to ALPHA, DIGEST or IN_BUF stores its byte, and every other byte and every register
stays. -/
def Obligations.WindowWritesStoreOneByte : Prop :=
  ∀ (s : State) (rest : List PortEvent) (b : Buffer) (i : Nat) (x : Byte),
    b ∈ [Buffer.alpha, .digest, .inBuf] → i < b.size s.params →
    s.port = .bus (.write (BitVec.ofNat 14 (b.base + i)) (.one x)) :: rest →
    ∃ t, step s = .next t ∧
      t = { s with port := rest, response := some { resp := .okay, rdata := none }, mem := t.mem } ∧
      t.mem.byteAt (b.base + i) = some x ∧ (∀ a, a ≠ b.base + i → t.mem.byteAt a = s.mem.byteAt a)

/-- R67: a correctly sized write to a read-only register or window gets OKAY and changes nothing; of STATUS a write
changes no bit but bit 8 (R25 says when). -/
def Obligations.ReadOnlyWritesAreIgnored : Prop :=
  ∀ (s : State) (rest : List PortEvent),
    (∀ v : Word, s.port = .bus (.write 0x004#14 (.four v)) :: rest →
      ∃ t, step s = .next t ∧ t = { s with port := rest, response := t.response, anyErr := t.anyErr }) ∧
    (∀ (r : Reg) (v : Word),
      (r ∈ [Reg.errInfo, .cfg, .outLen, .codeLen, .tval, .toff] ∨ (r = .status ∧ v.getLsbD 8 = false)) →
      s.port = .bus (.write (BitVec.ofNat 14 r.offset) (.four v)) :: rest →
      ignored s rest) ∧
    (∀ (b : Buffer) (i : Nat) (x : Byte), b ∈ [Buffer.msg, .codeBuf, .outBuf] → i < b.size s.params →
      s.port = .bus (.write (BitVec.ofNat 14 (b.base + i)) (.one x)) :: rest →
      ignored s rest)

/-- R246: the HMAC step takes OUT_BUF[0..OUT_LEN) as the key and MSG[0..8) as the message and writes the digest by 20
size-1 writes, which are at the port next; the block's state is not touched. `Config.hmacSha1` is the free function of
log 7. -/
def Obligations.HmacStepWritesTheDigestThroughThePort : Prop :=
  ∀ (s : State) (rest : List PortEvent), s.port = .hmacStep :: rest →
    let d := Config.hmacSha1 ((List.range s.outLen.toNat).map (fun i => bufByte s 0 .outBuf i))
      ((List.range 8).map (fun i => bufByte s 0 .msg i))
    ∃ t, step s = .next t ∧
      t = { s with
        port := (List.finRange 20).map (fun i => .bus (.write (BitVec.ofNat 14 (0x200 + i.val)) (.one d[i]))) ++ rest
        tick := t.tick }

/-- R8, R60, R61: an address reaches the block at an offset exactly if it is BASE plus that offset, and then, BASE being
16 KiB aligned, the offset is the address's low 14 bits; every other address makes no transaction of the block. (That
reading of BASE is log 10's.) -/
def Obligations.BusAddressesAreBasePlusOffset : Prop :=
  ∀ (p : Params) (a : Nat) (size : AccessSize),
    (∀ off : BitVec 14, p.offsetOf a = some off ↔ a = p.base.val + off.toNat) ∧
    (∀ off : BitVec 14, p.offsetOf (p.address off) = some off ∧ p.address off % 2 ^ 14 = off.toNat) ∧
    (hostReadAt p a size = none ↔ a < p.base.val ∨ p.base.val + 2 ^ 14 ≤ a)
end

