-- ==== Sys2Proof/Laws/State.lean ====
section
/-! SUPPORT. What every named update of the state does to every field: one lemma each, true by rfl, so that no proof
unfolds an update. -/

namespace Sys2Proof.Machine

variable (s : State)

/-! ### State.writeBuf -/

@[simp] theorem State.writeBuf_errCode (b : Buffer) (bs : List Byte) : (s.writeBuf b bs).errCode = s.errCode := rfl
@[simp] theorem State.writeBuf_anyErr (b : Buffer) (bs : List Byte) : (s.writeBuf b bs).anyErr = s.anyErr := rfl
@[simp] theorem State.writeBuf_errInfo (b : Buffer) (bs : List Byte) : (s.writeBuf b bs).errInfo = s.errInfo := rfl
@[simp] theorem State.writeBuf_cfg (b : Buffer) (bs : List Byte) : (s.writeBuf b bs).cfg = s.cfg := rfl
@[simp] theorem State.writeBuf_alphaLen (b : Buffer) (bs : List Byte) : (s.writeBuf b bs).alphaLen = s.alphaLen := rfl
@[simp] theorem State.writeBuf_inLen (b : Buffer) (bs : List Byte) : (s.writeBuf b bs).inLen = s.inLen := rfl
@[simp] theorem State.writeBuf_outLen (b : Buffer) (bs : List Byte) : (s.writeBuf b bs).outLen = s.outLen := rfl
@[simp] theorem State.writeBuf_codeLen (b : Buffer) (bs : List Byte) : (s.writeBuf b bs).codeLen = s.codeLen := rfl
@[simp] theorem State.writeBuf_time (b : Buffer) (bs : List Byte) : (s.writeBuf b bs).time = s.time := rfl
@[simp] theorem State.writeBuf_ctr (b : Buffer) (bs : List Byte) : (s.writeBuf b bs).ctr = s.ctr := rfl
@[simp] theorem State.writeBuf_tval (b : Buffer) (bs : List Byte) : (s.writeBuf b bs).tval = s.tval := rfl
@[simp] theorem State.writeBuf_toff (b : Buffer) (bs : List Byte) : (s.writeBuf b bs).toff = s.toff := rfl
@[simp] theorem State.writeBuf_mem (b : Buffer) (bs : List Byte) : (s.writeBuf b bs).mem = s.mem.writeBytes b.base bs := rfl
@[simp] theorem State.writeBuf_activeAlpha (b : Buffer) (bs : List Byte) : (s.writeBuf b bs).activeAlpha = s.activeAlpha := rfl
@[simp] theorem State.writeBuf_port (b : Buffer) (bs : List Byte) : (s.writeBuf b bs).port = s.port := rfl
@[simp] theorem State.writeBuf_response (b : Buffer) (bs : List Byte) : (s.writeBuf b bs).response = s.response := rfl
@[simp] theorem State.writeBuf_params (b : Buffer) (bs : List Byte) : (s.writeBuf b bs).params = s.params := rfl
@[simp] theorem State.writeBuf_tick (b : Buffer) (bs : List Byte) : (s.writeBuf b bs).tick = s.tick := rfl
@[simp] theorem State.writeBuf_resets (b : Buffer) (bs : List Byte) : (s.writeBuf b bs).resets = s.resets := rfl
@[simp] theorem State.writeBuf_inCap (b : Buffer) (bs : List Byte) : (s.writeBuf b bs).inCap = s.inCap := rfl
@[simp] theorem State.writeBuf_outCap (b : Buffer) (bs : List Byte) : (s.writeBuf b bs).outCap = s.outCap := rfl

/-! ### State.writeBufByte -/

@[simp] theorem State.writeBufByte_errCode (b : Buffer) (i : Nat) (v : Byte) : (s.writeBufByte b i v).errCode = s.errCode := rfl
@[simp] theorem State.writeBufByte_anyErr (b : Buffer) (i : Nat) (v : Byte) : (s.writeBufByte b i v).anyErr = s.anyErr := rfl
@[simp] theorem State.writeBufByte_errInfo (b : Buffer) (i : Nat) (v : Byte) : (s.writeBufByte b i v).errInfo = s.errInfo := rfl
@[simp] theorem State.writeBufByte_cfg (b : Buffer) (i : Nat) (v : Byte) : (s.writeBufByte b i v).cfg = s.cfg := rfl
@[simp] theorem State.writeBufByte_alphaLen (b : Buffer) (i : Nat) (v : Byte) : (s.writeBufByte b i v).alphaLen = s.alphaLen := rfl
@[simp] theorem State.writeBufByte_inLen (b : Buffer) (i : Nat) (v : Byte) : (s.writeBufByte b i v).inLen = s.inLen := rfl
@[simp] theorem State.writeBufByte_outLen (b : Buffer) (i : Nat) (v : Byte) : (s.writeBufByte b i v).outLen = s.outLen := rfl
@[simp] theorem State.writeBufByte_codeLen (b : Buffer) (i : Nat) (v : Byte) : (s.writeBufByte b i v).codeLen = s.codeLen := rfl
@[simp] theorem State.writeBufByte_time (b : Buffer) (i : Nat) (v : Byte) : (s.writeBufByte b i v).time = s.time := rfl
@[simp] theorem State.writeBufByte_ctr (b : Buffer) (i : Nat) (v : Byte) : (s.writeBufByte b i v).ctr = s.ctr := rfl
@[simp] theorem State.writeBufByte_tval (b : Buffer) (i : Nat) (v : Byte) : (s.writeBufByte b i v).tval = s.tval := rfl
@[simp] theorem State.writeBufByte_toff (b : Buffer) (i : Nat) (v : Byte) : (s.writeBufByte b i v).toff = s.toff := rfl
@[simp] theorem State.writeBufByte_mem (b : Buffer) (i : Nat) (v : Byte) : (s.writeBufByte b i v).mem = s.mem.writeByte (b.base + i) v := rfl
@[simp] theorem State.writeBufByte_activeAlpha (b : Buffer) (i : Nat) (v : Byte) : (s.writeBufByte b i v).activeAlpha = s.activeAlpha := rfl
@[simp] theorem State.writeBufByte_port (b : Buffer) (i : Nat) (v : Byte) : (s.writeBufByte b i v).port = s.port := rfl
@[simp] theorem State.writeBufByte_response (b : Buffer) (i : Nat) (v : Byte) : (s.writeBufByte b i v).response = s.response := rfl
@[simp] theorem State.writeBufByte_params (b : Buffer) (i : Nat) (v : Byte) : (s.writeBufByte b i v).params = s.params := rfl
@[simp] theorem State.writeBufByte_tick (b : Buffer) (i : Nat) (v : Byte) : (s.writeBufByte b i v).tick = s.tick := rfl
@[simp] theorem State.writeBufByte_resets (b : Buffer) (i : Nat) (v : Byte) : (s.writeBufByte b i v).resets = s.resets := rfl
@[simp] theorem State.writeBufByte_inCap (b : Buffer) (i : Nat) (v : Byte) : (s.writeBufByte b i v).inCap = s.inCap := rfl
@[simp] theorem State.writeBufByte_outCap (b : Buffer) (i : Nat) (v : Byte) : (s.writeBufByte b i v).outCap = s.outCap := rfl

/-! ### State.nextTick -/

@[simp] theorem State.nextTick_errCode : (s.nextTick).errCode = s.errCode := rfl
@[simp] theorem State.nextTick_anyErr : (s.nextTick).anyErr = s.anyErr := rfl
@[simp] theorem State.nextTick_errInfo : (s.nextTick).errInfo = s.errInfo := rfl
@[simp] theorem State.nextTick_cfg : (s.nextTick).cfg = s.cfg := rfl
@[simp] theorem State.nextTick_alphaLen : (s.nextTick).alphaLen = s.alphaLen := rfl
@[simp] theorem State.nextTick_inLen : (s.nextTick).inLen = s.inLen := rfl
@[simp] theorem State.nextTick_outLen : (s.nextTick).outLen = s.outLen := rfl
@[simp] theorem State.nextTick_codeLen : (s.nextTick).codeLen = s.codeLen := rfl
@[simp] theorem State.nextTick_time : (s.nextTick).time = s.time := rfl
@[simp] theorem State.nextTick_ctr : (s.nextTick).ctr = s.ctr := rfl
@[simp] theorem State.nextTick_tval : (s.nextTick).tval = s.tval := rfl
@[simp] theorem State.nextTick_toff : (s.nextTick).toff = s.toff := rfl
@[simp] theorem State.nextTick_mem : (s.nextTick).mem = s.mem := rfl
@[simp] theorem State.nextTick_activeAlpha : (s.nextTick).activeAlpha = s.activeAlpha := rfl
@[simp] theorem State.nextTick_port : (s.nextTick).port = s.port := rfl
@[simp] theorem State.nextTick_response : (s.nextTick).response = s.response := rfl
@[simp] theorem State.nextTick_params : (s.nextTick).params = s.params := rfl
@[simp] theorem State.nextTick_tick : (s.nextTick).tick = s.tick + 1 := rfl
@[simp] theorem State.nextTick_resets : (s.nextTick).resets = s.resets := rfl
@[simp] theorem State.nextTick_inCap : (s.nextTick).inCap = s.inCap := rfl
@[simp] theorem State.nextTick_outCap : (s.nextTick).outCap = s.outCap := rfl

/-! ### State.putOutput -/

@[simp] theorem State.putOutput_errCode (bs : List Byte) : (s.putOutput bs).errCode = s.errCode := rfl
@[simp] theorem State.putOutput_anyErr (bs : List Byte) : (s.putOutput bs).anyErr = s.anyErr := rfl
@[simp] theorem State.putOutput_errInfo (bs : List Byte) : (s.putOutput bs).errInfo = s.errInfo := rfl
@[simp] theorem State.putOutput_cfg (bs : List Byte) : (s.putOutput bs).cfg = s.cfg := rfl
@[simp] theorem State.putOutput_alphaLen (bs : List Byte) : (s.putOutput bs).alphaLen = s.alphaLen := rfl
@[simp] theorem State.putOutput_inLen (bs : List Byte) : (s.putOutput bs).inLen = s.inLen := rfl
@[simp] theorem State.putOutput_outLen (bs : List Byte) : (s.putOutput bs).outLen = BitVec.ofNat 16 bs.length := rfl
@[simp] theorem State.putOutput_codeLen (bs : List Byte) : (s.putOutput bs).codeLen = s.codeLen := rfl
@[simp] theorem State.putOutput_time (bs : List Byte) : (s.putOutput bs).time = s.time := rfl
@[simp] theorem State.putOutput_ctr (bs : List Byte) : (s.putOutput bs).ctr = s.ctr := rfl
@[simp] theorem State.putOutput_tval (bs : List Byte) : (s.putOutput bs).tval = s.tval := rfl
@[simp] theorem State.putOutput_toff (bs : List Byte) : (s.putOutput bs).toff = s.toff := rfl
@[simp] theorem State.putOutput_mem (bs : List Byte) : (s.putOutput bs).mem = s.mem.writeBytes Buffer.outBuf.base bs := rfl
@[simp] theorem State.putOutput_activeAlpha (bs : List Byte) : (s.putOutput bs).activeAlpha = s.activeAlpha := rfl
@[simp] theorem State.putOutput_port (bs : List Byte) : (s.putOutput bs).port = s.port := rfl
@[simp] theorem State.putOutput_response (bs : List Byte) : (s.putOutput bs).response = s.response := rfl
@[simp] theorem State.putOutput_params (bs : List Byte) : (s.putOutput bs).params = s.params := rfl
@[simp] theorem State.putOutput_tick (bs : List Byte) : (s.putOutput bs).tick = s.tick := rfl
@[simp] theorem State.putOutput_resets (bs : List Byte) : (s.putOutput bs).resets = s.resets := rfl
@[simp] theorem State.putOutput_inCap (bs : List Byte) : (s.putOutput bs).inCap = s.inCap := rfl
@[simp] theorem State.putOutput_outCap (bs : List Byte) : (s.putOutput bs).outCap = s.outCap := rfl

/-! ### State.putInput -/

@[simp] theorem State.putInput_errCode (bs : List Byte) : (s.putInput bs).errCode = s.errCode := rfl
@[simp] theorem State.putInput_anyErr (bs : List Byte) : (s.putInput bs).anyErr = s.anyErr := rfl
@[simp] theorem State.putInput_errInfo (bs : List Byte) : (s.putInput bs).errInfo = s.errInfo := rfl
@[simp] theorem State.putInput_cfg (bs : List Byte) : (s.putInput bs).cfg = s.cfg := rfl
@[simp] theorem State.putInput_alphaLen (bs : List Byte) : (s.putInput bs).alphaLen = s.alphaLen := rfl
@[simp] theorem State.putInput_inLen (bs : List Byte) : (s.putInput bs).inLen = BitVec.ofNat 16 bs.length := rfl
@[simp] theorem State.putInput_outLen (bs : List Byte) : (s.putInput bs).outLen = s.outLen := rfl
@[simp] theorem State.putInput_codeLen (bs : List Byte) : (s.putInput bs).codeLen = s.codeLen := rfl
@[simp] theorem State.putInput_time (bs : List Byte) : (s.putInput bs).time = s.time := rfl
@[simp] theorem State.putInput_ctr (bs : List Byte) : (s.putInput bs).ctr = s.ctr := rfl
@[simp] theorem State.putInput_tval (bs : List Byte) : (s.putInput bs).tval = s.tval := rfl
@[simp] theorem State.putInput_toff (bs : List Byte) : (s.putInput bs).toff = s.toff := rfl
@[simp] theorem State.putInput_mem (bs : List Byte) : (s.putInput bs).mem = s.mem.writeBytes Buffer.inBuf.base bs := rfl
@[simp] theorem State.putInput_activeAlpha (bs : List Byte) : (s.putInput bs).activeAlpha = s.activeAlpha := rfl
@[simp] theorem State.putInput_port (bs : List Byte) : (s.putInput bs).port = s.port := rfl
@[simp] theorem State.putInput_response (bs : List Byte) : (s.putInput bs).response = s.response := rfl
@[simp] theorem State.putInput_params (bs : List Byte) : (s.putInput bs).params = s.params := rfl
@[simp] theorem State.putInput_tick (bs : List Byte) : (s.putInput bs).tick = s.tick := rfl
@[simp] theorem State.putInput_resets (bs : List Byte) : (s.putInput bs).resets = s.resets := rfl
@[simp] theorem State.putInput_inCap (bs : List Byte) : (s.putInput bs).inCap = s.inCap := rfl
@[simp] theorem State.putInput_outCap (bs : List Byte) : (s.putInput bs).outCap = s.outCap := rfl

/-! ### State.clearCfg -/

@[simp] theorem State.clearCfg_errCode : (s.clearCfg).errCode = s.errCode := rfl
@[simp] theorem State.clearCfg_anyErr : (s.clearCfg).anyErr = s.anyErr := rfl
@[simp] theorem State.clearCfg_errInfo : (s.clearCfg).errInfo = s.errInfo := rfl
@[simp] theorem State.clearCfg_cfg : (s.clearCfg).cfg = CfgReg.cleared := rfl
@[simp] theorem State.clearCfg_alphaLen : (s.clearCfg).alphaLen = s.alphaLen := rfl
@[simp] theorem State.clearCfg_inLen : (s.clearCfg).inLen = s.inLen := rfl
@[simp] theorem State.clearCfg_outLen : (s.clearCfg).outLen = s.outLen := rfl
@[simp] theorem State.clearCfg_codeLen : (s.clearCfg).codeLen = s.codeLen := rfl
@[simp] theorem State.clearCfg_time : (s.clearCfg).time = s.time := rfl
@[simp] theorem State.clearCfg_ctr : (s.clearCfg).ctr = s.ctr := rfl
@[simp] theorem State.clearCfg_tval : (s.clearCfg).tval = s.tval := rfl
@[simp] theorem State.clearCfg_toff : (s.clearCfg).toff = s.toff := rfl
@[simp] theorem State.clearCfg_mem : (s.clearCfg).mem = s.mem := rfl
@[simp] theorem State.clearCfg_activeAlpha : (s.clearCfg).activeAlpha = s.activeAlpha := rfl
@[simp] theorem State.clearCfg_port : (s.clearCfg).port = s.port := rfl
@[simp] theorem State.clearCfg_response : (s.clearCfg).response = s.response := rfl
@[simp] theorem State.clearCfg_params : (s.clearCfg).params = s.params := rfl
@[simp] theorem State.clearCfg_tick : (s.clearCfg).tick = s.tick := rfl
@[simp] theorem State.clearCfg_resets : (s.clearCfg).resets = s.resets := rfl
@[simp] theorem State.clearCfg_inCap : (s.clearCfg).inCap = s.inCap := rfl
@[simp] theorem State.clearCfg_outCap : (s.clearCfg).outCap = s.outCap := rfl

/-! ### State.latchCodec -/

@[simp] theorem State.latchCodec_errCode (c : CfgReg) (syms : List Byte) : (s.latchCodec c syms).errCode = s.errCode := rfl
@[simp] theorem State.latchCodec_anyErr (c : CfgReg) (syms : List Byte) : (s.latchCodec c syms).anyErr = s.anyErr := rfl
@[simp] theorem State.latchCodec_errInfo (c : CfgReg) (syms : List Byte) : (s.latchCodec c syms).errInfo = s.errInfo := rfl
@[simp] theorem State.latchCodec_cfg (c : CfgReg) (syms : List Byte) : (s.latchCodec c syms).cfg = c := rfl
@[simp] theorem State.latchCodec_alphaLen (c : CfgReg) (syms : List Byte) : (s.latchCodec c syms).alphaLen = s.alphaLen := rfl
@[simp] theorem State.latchCodec_inLen (c : CfgReg) (syms : List Byte) : (s.latchCodec c syms).inLen = s.inLen := rfl
@[simp] theorem State.latchCodec_outLen (c : CfgReg) (syms : List Byte) : (s.latchCodec c syms).outLen = s.outLen := rfl
@[simp] theorem State.latchCodec_codeLen (c : CfgReg) (syms : List Byte) : (s.latchCodec c syms).codeLen = s.codeLen := rfl
@[simp] theorem State.latchCodec_time (c : CfgReg) (syms : List Byte) : (s.latchCodec c syms).time = s.time := rfl
@[simp] theorem State.latchCodec_ctr (c : CfgReg) (syms : List Byte) : (s.latchCodec c syms).ctr = s.ctr := rfl
@[simp] theorem State.latchCodec_tval (c : CfgReg) (syms : List Byte) : (s.latchCodec c syms).tval = s.tval := rfl
@[simp] theorem State.latchCodec_toff (c : CfgReg) (syms : List Byte) : (s.latchCodec c syms).toff = s.toff := rfl
@[simp] theorem State.latchCodec_mem (c : CfgReg) (syms : List Byte) : (s.latchCodec c syms).mem = s.mem := rfl
@[simp] theorem State.latchCodec_activeAlpha (c : CfgReg) (syms : List Byte) : (s.latchCodec c syms).activeAlpha = s.activeAlpha.writeBytes 0 syms := rfl
@[simp] theorem State.latchCodec_port (c : CfgReg) (syms : List Byte) : (s.latchCodec c syms).port = s.port := rfl
@[simp] theorem State.latchCodec_response (c : CfgReg) (syms : List Byte) : (s.latchCodec c syms).response = s.response := rfl
@[simp] theorem State.latchCodec_params (c : CfgReg) (syms : List Byte) : (s.latchCodec c syms).params = s.params := rfl
@[simp] theorem State.latchCodec_tick (c : CfgReg) (syms : List Byte) : (s.latchCodec c syms).tick = s.tick := rfl
@[simp] theorem State.latchCodec_resets (c : CfgReg) (syms : List Byte) : (s.latchCodec c syms).resets = s.resets := rfl
@[simp] theorem State.latchCodec_inCap (c : CfgReg) (syms : List Byte) : (s.latchCodec c syms).inCap = s.inCap := rfl
@[simp] theorem State.latchCodec_outCap (c : CfgReg) (syms : List Byte) : (s.latchCodec c syms).outCap = s.outCap := rfl

/-! ### State.softReset -/

@[simp] theorem State.softReset_errCode : (s.softReset).errCode = s.errCode := rfl
@[simp] theorem State.softReset_anyErr : (s.softReset).anyErr = false := rfl
@[simp] theorem State.softReset_errInfo : (s.softReset).errInfo = s.errInfo := rfl
@[simp] theorem State.softReset_cfg : (s.softReset).cfg = CfgReg.cleared := rfl
@[simp] theorem State.softReset_alphaLen : (s.softReset).alphaLen = 0#9 := rfl
@[simp] theorem State.softReset_inLen : (s.softReset).inLen = 0#16 := rfl
@[simp] theorem State.softReset_outLen : (s.softReset).outLen = 0#16 := rfl
@[simp] theorem State.softReset_codeLen : (s.softReset).codeLen = 6#8 := rfl
@[simp] theorem State.softReset_time : (s.softReset).time = 0#64 := rfl
@[simp] theorem State.softReset_ctr : (s.softReset).ctr = 0#64 := rfl
@[simp] theorem State.softReset_tval : (s.softReset).tval = 0#31 := rfl
@[simp] theorem State.softReset_toff : (s.softReset).toff = 0#4 := rfl
@[simp] theorem State.softReset_mem : (s.softReset).mem = s.mem := rfl
@[simp] theorem State.softReset_activeAlpha : (s.softReset).activeAlpha = s.activeAlpha := rfl
@[simp] theorem State.softReset_port : (s.softReset).port = s.port := rfl
@[simp] theorem State.softReset_response : (s.softReset).response = s.response := rfl
@[simp] theorem State.softReset_params : (s.softReset).params = s.params := rfl
@[simp] theorem State.softReset_tick : (s.softReset).tick = s.tick := rfl
@[simp] theorem State.softReset_resets : (s.softReset).resets = s.resets := rfl
@[simp] theorem State.softReset_inCap : (s.softReset).inCap = s.inCap := rfl
@[simp] theorem State.softReset_outCap : (s.softReset).outCap = s.outCap := rfl

/-! ### State.powerOn -/

@[simp] theorem State.powerOn_errCode : (s.powerOn).errCode = .ok := rfl
@[simp] theorem State.powerOn_anyErr : (s.powerOn).anyErr = false := rfl
@[simp] theorem State.powerOn_errInfo : (s.powerOn).errInfo = 0#16 := rfl
@[simp] theorem State.powerOn_cfg : (s.powerOn).cfg = CfgReg.cleared := rfl
@[simp] theorem State.powerOn_alphaLen : (s.powerOn).alphaLen = 0#9 := rfl
@[simp] theorem State.powerOn_inLen : (s.powerOn).inLen = 0#16 := rfl
@[simp] theorem State.powerOn_outLen : (s.powerOn).outLen = 0#16 := rfl
@[simp] theorem State.powerOn_codeLen : (s.powerOn).codeLen = 6#8 := rfl
@[simp] theorem State.powerOn_time : (s.powerOn).time = 0#64 := rfl
@[simp] theorem State.powerOn_ctr : (s.powerOn).ctr = 0#64 := rfl
@[simp] theorem State.powerOn_tval : (s.powerOn).tval = 0#31 := rfl
@[simp] theorem State.powerOn_toff : (s.powerOn).toff = 0#4 := rfl
@[simp] theorem State.powerOn_mem : (s.powerOn).mem = ⟨[]⟩ := rfl
@[simp] theorem State.powerOn_activeAlpha : (s.powerOn).activeAlpha = ⟨[]⟩ := rfl
@[simp] theorem State.powerOn_port : (s.powerOn).port = s.port := rfl
@[simp] theorem State.powerOn_response : (s.powerOn).response = none := rfl
@[simp] theorem State.powerOn_params : (s.powerOn).params = s.params := rfl
@[simp] theorem State.powerOn_tick : (s.powerOn).tick = s.tick + 1 := rfl
@[simp] theorem State.powerOn_resets : (s.powerOn).resets = s.resets + 1 := rfl
@[simp] theorem State.powerOn_inCap : (s.powerOn).inCap = s.inCap := rfl
@[simp] theorem State.powerOn_outCap : (s.powerOn).outCap = s.outCap := rfl

/-! ### State.report -/

@[simp] theorem State.report_errCode (e : ErrCode) (info : BitVec 16) : (s.report e info).errCode = e := rfl
@[simp] theorem State.report_anyErr (e : ErrCode) (info : BitVec 16) : (s.report e info).anyErr = (s.anyErr || e != .ok) := rfl
@[simp] theorem State.report_errInfo (e : ErrCode) (info : BitVec 16) : (s.report e info).errInfo = info := rfl
@[simp] theorem State.report_cfg (e : ErrCode) (info : BitVec 16) : (s.report e info).cfg = s.cfg := rfl
@[simp] theorem State.report_alphaLen (e : ErrCode) (info : BitVec 16) : (s.report e info).alphaLen = s.alphaLen := rfl
@[simp] theorem State.report_inLen (e : ErrCode) (info : BitVec 16) : (s.report e info).inLen = s.inLen := rfl
@[simp] theorem State.report_outLen (e : ErrCode) (info : BitVec 16) : (s.report e info).outLen = s.outLen := rfl
@[simp] theorem State.report_codeLen (e : ErrCode) (info : BitVec 16) : (s.report e info).codeLen = s.codeLen := rfl
@[simp] theorem State.report_time (e : ErrCode) (info : BitVec 16) : (s.report e info).time = s.time := rfl
@[simp] theorem State.report_ctr (e : ErrCode) (info : BitVec 16) : (s.report e info).ctr = s.ctr := rfl
@[simp] theorem State.report_tval (e : ErrCode) (info : BitVec 16) : (s.report e info).tval = s.tval := rfl
@[simp] theorem State.report_toff (e : ErrCode) (info : BitVec 16) : (s.report e info).toff = s.toff := rfl
@[simp] theorem State.report_mem (e : ErrCode) (info : BitVec 16) : (s.report e info).mem = s.mem := rfl
@[simp] theorem State.report_activeAlpha (e : ErrCode) (info : BitVec 16) : (s.report e info).activeAlpha = s.activeAlpha := rfl
@[simp] theorem State.report_port (e : ErrCode) (info : BitVec 16) : (s.report e info).port = s.port := rfl
@[simp] theorem State.report_response (e : ErrCode) (info : BitVec 16) : (s.report e info).response = s.response := rfl
@[simp] theorem State.report_params (e : ErrCode) (info : BitVec 16) : (s.report e info).params = s.params := rfl
@[simp] theorem State.report_tick (e : ErrCode) (info : BitVec 16) : (s.report e info).tick = s.tick + 1 := rfl
@[simp] theorem State.report_resets (e : ErrCode) (info : BitVec 16) : (s.report e info).resets = s.resets := rfl
@[simp] theorem State.report_inCap (e : ErrCode) (info : BitVec 16) : (s.report e info).inCap = s.inCap := rfl
@[simp] theorem State.report_outCap (e : ErrCode) (info : BitVec 16) : (s.report e info).outCap = s.outCap := rfl

/-! ### State.respond -/

@[simp] theorem State.respond_errCode (r : Response) : (s.respond r).errCode = s.errCode := rfl
@[simp] theorem State.respond_anyErr (r : Response) : (s.respond r).anyErr = s.anyErr := rfl
@[simp] theorem State.respond_errInfo (r : Response) : (s.respond r).errInfo = s.errInfo := rfl
@[simp] theorem State.respond_cfg (r : Response) : (s.respond r).cfg = s.cfg := rfl
@[simp] theorem State.respond_alphaLen (r : Response) : (s.respond r).alphaLen = s.alphaLen := rfl
@[simp] theorem State.respond_inLen (r : Response) : (s.respond r).inLen = s.inLen := rfl
@[simp] theorem State.respond_outLen (r : Response) : (s.respond r).outLen = s.outLen := rfl
@[simp] theorem State.respond_codeLen (r : Response) : (s.respond r).codeLen = s.codeLen := rfl
@[simp] theorem State.respond_time (r : Response) : (s.respond r).time = s.time := rfl
@[simp] theorem State.respond_ctr (r : Response) : (s.respond r).ctr = s.ctr := rfl
@[simp] theorem State.respond_tval (r : Response) : (s.respond r).tval = s.tval := rfl
@[simp] theorem State.respond_toff (r : Response) : (s.respond r).toff = s.toff := rfl
@[simp] theorem State.respond_mem (r : Response) : (s.respond r).mem = s.mem := rfl
@[simp] theorem State.respond_activeAlpha (r : Response) : (s.respond r).activeAlpha = s.activeAlpha := rfl
@[simp] theorem State.respond_port (r : Response) : (s.respond r).port = s.port := rfl
@[simp] theorem State.respond_response (r : Response) : (s.respond r).response = some r := rfl
@[simp] theorem State.respond_params (r : Response) : (s.respond r).params = s.params := rfl
@[simp] theorem State.respond_tick (r : Response) : (s.respond r).tick = s.tick := rfl
@[simp] theorem State.respond_resets (r : Response) : (s.respond r).resets = s.resets := rfl
@[simp] theorem State.respond_inCap (r : Response) : (s.respond r).inCap = s.inCap := rfl
@[simp] theorem State.respond_outCap (r : Response) : (s.respond r).outCap = s.outCap := rfl

/-! ### State.truncate -/

@[simp] theorem State.truncate_errCode : (s.truncate).errCode = s.errCode := rfl
@[simp] theorem State.truncate_anyErr : (s.truncate).anyErr = s.anyErr := rfl
@[simp] theorem State.truncate_errInfo : (s.truncate).errInfo = s.errInfo := rfl
@[simp] theorem State.truncate_cfg : (s.truncate).cfg = s.cfg := rfl
@[simp] theorem State.truncate_alphaLen : (s.truncate).alphaLen = s.alphaLen := rfl
@[simp] theorem State.truncate_inLen : (s.truncate).inLen = s.inLen := rfl
@[simp] theorem State.truncate_outLen : (s.truncate).outLen = s.outLen := rfl
@[simp] theorem State.truncate_codeLen : (s.truncate).codeLen = s.codeLen := rfl
@[simp] theorem State.truncate_time : (s.truncate).time = s.time := rfl
@[simp] theorem State.truncate_ctr : (s.truncate).ctr = s.ctr := rfl
@[simp] theorem State.truncate_tval : (s.truncate).tval = truncValue s.digest := rfl
@[simp] theorem State.truncate_toff : (s.truncate).toff = BitVec.ofNat 4 (truncOffset (s.digest 19)) := rfl
@[simp] theorem State.truncate_mem : (s.truncate).mem = s.mem := rfl
@[simp] theorem State.truncate_activeAlpha : (s.truncate).activeAlpha = s.activeAlpha := rfl
@[simp] theorem State.truncate_port : (s.truncate).port = s.port := rfl
@[simp] theorem State.truncate_response : (s.truncate).response = s.response := rfl
@[simp] theorem State.truncate_params : (s.truncate).params = s.params := rfl
@[simp] theorem State.truncate_tick : (s.truncate).tick = s.tick := rfl
@[simp] theorem State.truncate_resets : (s.truncate).resets = s.resets := rfl
@[simp] theorem State.truncate_inCap : (s.truncate).inCap = s.inCap := rfl
@[simp] theorem State.truncate_outCap : (s.truncate).outCap = s.outCap := rfl

/-! ### State.format -/

@[simp] theorem State.format_errCode : (s.format).errCode = s.errCode := rfl
@[simp] theorem State.format_anyErr : (s.format).anyErr = s.anyErr := rfl
@[simp] theorem State.format_errInfo : (s.format).errInfo = s.errInfo := rfl
@[simp] theorem State.format_cfg : (s.format).cfg = s.cfg := rfl
@[simp] theorem State.format_alphaLen : (s.format).alphaLen = s.alphaLen := rfl
@[simp] theorem State.format_inLen : (s.format).inLen = s.inLen := rfl
@[simp] theorem State.format_outLen : (s.format).outLen = s.outLen := rfl
@[simp] theorem State.format_codeLen : (s.format).codeLen = s.codeLen := rfl
@[simp] theorem State.format_time : (s.format).time = s.time := rfl
@[simp] theorem State.format_ctr : (s.format).ctr = s.ctr := rfl
@[simp] theorem State.format_tval : (s.format).tval = s.tval := rfl
@[simp] theorem State.format_toff : (s.format).toff = s.toff := rfl
@[simp] theorem State.format_mem : (s.format).mem = s.mem.writeBytes Buffer.codeBuf.base (codeDigits s.codeLen.toNat s.tval.toNat) := rfl
@[simp] theorem State.format_activeAlpha : (s.format).activeAlpha = s.activeAlpha := rfl
@[simp] theorem State.format_port : (s.format).port = s.port := rfl
@[simp] theorem State.format_response : (s.format).response = s.response := rfl
@[simp] theorem State.format_params : (s.format).params = s.params := rfl
@[simp] theorem State.format_tick : (s.format).tick = s.tick := rfl
@[simp] theorem State.format_resets : (s.format).resets = s.resets := rfl
@[simp] theorem State.format_inCap : (s.format).inCap = s.inCap := rfl
@[simp] theorem State.format_outCap : (s.format).outCap = s.outCap := rfl

/-! ### The block, whole: the updates that do not touch it, and the reset that gives it anew -/

@[simp] theorem State.nextTick_toBlock : s.nextTick.toBlock = s.toBlock := rfl
@[simp] theorem State.respond_toBlock (r : Response) : (s.respond r).toBlock = s.toBlock := rfl
@[simp] theorem State.serveHmac_toBlock : s.serveHmac.toBlock = s.toBlock := rfl
@[simp] theorem State.placeCommand_toBlock (w : Word) : (s.placeCommand w).toBlock = s.toBlock := rfl
@[simp] theorem State.powerOn_toBlock : s.powerOn.toBlock = Block.reset := rfl
@[simp] theorem State.reset_toBlock : State.reset.toBlock = Block.reset := rfl

end Sys2Proof.Machine
end

