-- ==== Sys2Proof/Laws/Memory.lean ====
section
/-! SUPPORT. Memory: a read after a write, the canonical form kept by every operation, byte lists written and read
back. -/

namespace Sys2Proof.Machine

theorem cellAt_putCell_same (cs : List Host.Cell) (a : Nat) (b : Byte) : cellAt (putCell cs a b) a = some b := by
  induction cs with
  | nil => simp [putCell, cellAt]
  | cons c cs ih =>
    obtain ⟨k, v⟩ := c
    simp only [putCell]
    split
    · simp [cellAt]
    · split
      · simp [cellAt]
      · next h1 h2 => simp [cellAt, Ne.symm h2, ih]

theorem cellAt_putCell_other (cs : List Host.Cell) {a x : Nat} (b : Byte) (h : x ≠ a) :
    cellAt (putCell cs a b) x = cellAt cs x := by
  induction cs with
  | nil => simp [putCell, cellAt, Ne.symm h]
  | cons c cs ih =>
    obtain ⟨k, v⟩ := c
    simp only [putCell]
    split
    · simp [cellAt, Ne.symm h]
    · split
      · next h2 => subst h2; simp [cellAt, Ne.symm h]
      · simp only [cellAt, ih]

/-- A read of the byte just written. -/
@[simp] theorem Memory.byteAt_writeByte_same (m : Memory) (a : Nat) (b : Byte) : (m.writeByte a b).byteAt a = some b :=
  cellAt_putCell_same m.cells a b

/-- A write leaves every other byte alone. -/
theorem Memory.byteAt_writeByte_other (m : Memory) {a x : Nat} (b : Byte) (h : x ≠ a) :
    (m.writeByte a b).byteAt x = m.byteAt x :=
  cellAt_putCell_other m.cells b h

/-- Bytes outside the range written are as before. -/
theorem Memory.byteAt_writeBytes_outside (bs : List Byte) :
    ∀ (m : Memory) (a x : Nat), (x < a ∨ a + bs.length ≤ x) → (m.writeBytes a bs).byteAt x = m.byteAt x := by
  induction bs with
  | nil => intro m a x _; rfl
  | cons b bs ih =>
    intro m a x h
    simp only [List.length_cons] at h
    rw [Memory.writeBytes, ih _ _ _ (by omega), Memory.byteAt_writeByte_other _ _ (by omega)]

/-- Bytes inside the range written are the ones written. -/
theorem Memory.byteAt_writeBytes_inside (bs : List Byte) :
    ∀ (m : Memory) (a i : Nat), i < bs.length → (m.writeBytes a bs).byteAt (a + i) = bs[i]? := by
  induction bs with
  | nil => intro m a i h; simp at h
  | cons b bs ih =>
    intro m a i h
    rw [Memory.writeBytes]
    cases i with
    | zero => simp [Memory.byteAt_writeBytes_outside]
    | succ i =>
      have := ih (m.writeByte a b) (a + 1) i (by simpa using h)
      rw [show a + (i + 1) = a + 1 + i by omega, this, List.getElem?_cons_succ]

/-- What `writeBytes` does to any byte: inside the range the new byte, outside the old one. -/
theorem Memory.byteAt_writeBytes (m : Memory) (a : Nat) (bs : List Byte) (x : Nat) :
    (m.writeBytes a bs).byteAt x = if a ≤ x ∧ x < a + bs.length then bs[x - a]? else m.byteAt x := by
  split
  · next h =>
    have := Memory.byteAt_writeBytes_inside bs m a (x - a) (by omega)
    rwa [show a + (x - a) = x by omega] at this
  · exact Memory.byteAt_writeBytes_outside bs m a x (by omega)

/-- A written byte stays written. -/
theorem Memory.byteAt_writeBytes_ne_none (m : Memory) (a : Nat) (bs : List Byte) {x : Nat} (h : m.byteAt x ≠ none) :
    (m.writeBytes a bs).byteAt x ≠ none := by
  rw [Memory.byteAt_writeBytes]
  split
  · next hx => simp only [ne_eq, List.getElem?_eq_none_iff]; omega
  · exact h

theorem mem_putCell (cs : List Host.Cell) (a : Nat) (b : Byte) (c : Host.Cell) (h : c ∈ putCell cs a b) :
    c = (a, b) ∨ c ∈ cs := by
  induction cs with
  | nil => simpa [putCell] using h
  | cons d cs ih =>
    obtain ⟨k, v⟩ := d
    simp only [putCell] at h
    split at h
    · simpa using h
    · split at h
      · rcases List.mem_cons.1 h with h | h
        · exact .inl h
        · exact .inr (List.mem_cons_of_mem _ h)
      · rcases List.mem_cons.1 h with h | h
        · exact .inr (h ▸ List.mem_cons_self)
        · exact (ih h).imp id (List.mem_cons_of_mem _)

theorem putCell_rising (cs : List Host.Cell) (a : Nat) (b : Byte) (h : cs.Pairwise (fun x y => x.1 < y.1)) :
    (putCell cs a b).Pairwise (fun x y => x.1 < y.1) := by
  induction cs with
  | nil => simp [putCell]
  | cons c cs ih =>
    obtain ⟨k, v⟩ := c
    obtain ⟨hk, hcs⟩ := List.pairwise_cons.1 h
    simp only [putCell]
    split
    · next hlt =>
      refine List.pairwise_cons.2 ⟨fun y hy => ?_, h⟩
      rcases List.mem_cons.1 hy with rfl | hy
      · exact hlt
      · exact Nat.lt_trans hlt (hk y hy)
    · split
      · next heq => subst heq; exact List.pairwise_cons.2 ⟨hk, hcs⟩
      · next h1 h2 =>
        refine List.pairwise_cons.2 ⟨fun y hy => ?_, ih hcs⟩
        rcases mem_putCell _ _ _ _ hy with rfl | hy
        · show k < a; omega
        · exact hk y hy

/-- `writeByte` keeps the canonical form. -/
theorem Memory.writeByte_wf (m : Memory) (a : Nat) (b : Byte) (h : m.wf) : (m.writeByte a b).wf :=
  putCell_rising m.cells a b h

/-- `writeBytes` keeps the canonical form. -/
theorem Memory.writeBytes_wf (bs : List Byte) : ∀ (m : Memory) (a : Nat), m.wf → (m.writeBytes a bs).wf := by
  induction bs with
  | nil => intro m a h; exact h
  | cons b bs ih => intro m a h; exact ih _ _ (Memory.writeByte_wf m a b h)

/-- Memory right after reset has the canonical form. -/
theorem State.reset_mem_wf : State.reset.mem.wf := List.Pairwise.nil

/-- The hidden table right after reset has the canonical form. -/
theorem State.reset_activeAlpha_wf : State.reset.activeAlpha.wf := List.Pairwise.nil

/-- A written byte reads as it was written, in every pass. -/
theorem State.storage_of_written (s : State) (pass : Nat) {off : Nat} {b : Byte} (h : s.mem.byteAt off = some b) :
    s.storage pass off = b := by
  simp [State.storage, h]

/-- With STABLE_UNINIT a byte reads the same in every pass (R48). -/
theorem State.storage_of_stable (s : State) (pass pass' off : Nat) (h : s.params.stableUninit = true) :
    s.storage pass off = s.storage pass' off := by
  simp [State.storage, h]

@[simp] theorem State.readBuf_length (s : State) (pass : Nat) (b : Buffer) (k : Nat) : (s.readBuf pass b k).length = k := by
  simp [State.readBuf]

end Sys2Proof.Machine
end

