-- ==== Sys2Proof/Laws/Ops.lean ====
section
/-! SUPPORT. The shared operations: what the address map answers, what a transaction and an event can do, said once
each, for the proofs to cite instead of unfolding. -/

namespace Sys2Proof.Machine

/-! ### The address map -/

theorem Reg.offset_lt (r : Reg) : r.offset < 0x38 ∧ r.offset % 4 = 0 := by cases r <;> decide

theorem Reg.mem_all (r : Reg) : r ∈ Reg.all := by cases r <;> decide

theorem Reg.offset_injective : ∀ r q : Reg, r.offset = q.offset → r = q := by
  intro r q; cases r <;> cases q <;> first | (intro _; rfl) | (intro h; exact absurd h (by decide))

/-- A window never has more than 4096 bytes. -/
theorem Buffer.size_le (p : Params) (b : Buffer) : b.size p ≤ 4096 := by
  cases b <;> simp only [Buffer.size] <;> first | omega | exact p.inCap.2.2 | exact p.outCap.2.2

/-- Every register offset stands for its register. -/
theorem locate_reg (p : Params) (r : Reg) : locate p r.offset = some (.reg r) := by
  cases r <;> rfl

/-- An offset that stands for a register is that register's. -/
theorem locate_eq_reg {p : Params} {off : Nat} {r : Reg} (h : locate p off = some (.reg r)) : off = r.offset := by
  unfold locate at h
  split at h
  · next q hq =>
    have := List.find?_some hq
    simp only [beq_iff_eq] at this
    simp only [Option.some.injEq, Location.reg.injEq] at h
    rw [← h, this]
  · split at h <;> simp at h

/-- An offset that stands for a byte lies in that byte's window. -/
theorem locate_eq_byte {p : Params} {off : Nat} {b : Buffer} {i : Nat} (h : locate p off = some (.byte b i)) :
    off = b.base + i ∧ i < b.size p := by
  unfold locate at h
  split at h
  · simp at h
  · split at h
    · next c hc =>
      have := List.find?_some hc
      simp only [Buffer.holds, decide_eq_true_eq] at this
      simp only [Option.some.injEq, Location.byte.injEq] at h
      obtain ⟨rfl, rfl⟩ := h
      omega
    · simp at h

/-- Every byte of a window is found in the map. -/
theorem locate_byte (p : Params) (b : Buffer) {i : Nat} (h : i < b.size p) : locate p (b.base + i) = some (.byte b i) := by
  have h1 := p.inCap.2
  have h2 := p.outCap.2
  have hs := Buffer.size_le p b
  have hreg : Reg.all.find? (fun r => r.offset == b.base + i) = none := by
    refine List.find?_eq_none.2 (fun r _ => ?_)
    have hr := Reg.offset_lt r
    simp only [beq_iff_eq]
    cases b <;> simp only [Buffer.base] <;> omega
  have hother : ∀ c : Buffer, Buffer.holds p (b.base + i) c = decide (c = b) := by
    intro c
    unfold Buffer.holds
    rw [decide_eq_decide]
    cases b <;> cases c <;> simp only [Buffer.base, Buffer.size, reduceCtorEq, iff_false, iff_true] at h ⊢ <;> omega
  have hbuf : Buffer.all.find? (Buffer.holds p (b.base + i)) = some b := by
    simp only [funext hother]
    cases b <;> decide
  simp only [locate, hreg, hbuf, Nat.add_sub_cancel_left]

/-! ### Transactions -/

/-- All a read transaction can do: answer SLVERR, a register's value, or a byte's. -/
theorem State.serveRead_cases (s : State) (off : BitVec 14) (size : AccessSize) :
    s.serveRead off size = s.respond slverr ∨
    (∃ r, locate s.params off.toNat = some (.reg r) ∧ size = .four ∧
      s.serveRead off size = s.respond (okayRead ((s.regRead r).setWidth 64))) ∨
    (∃ b i, locate s.params off.toNat = some (.byte b i) ∧ size = .one ∧
      s.serveRead off size = s.nextTick.respond (okayRead ((s.storage 0 (b.base + i)).setWidth 64))) := by
  unfold State.serveRead
  split
  · next r h => exact .inr (.inl ⟨r, h, rfl, rfl⟩)
  · next b i h => exact .inr (.inr ⟨b, i, h, rfl, rfl⟩)
  · exact .inl rfl

/-- All a write transaction can do: answer SLVERR, run a command word, write a register, write a byte of a writable
window, or nothing to a read-only one. -/
theorem State.serveWrite_cases (s : State) (off : BitVec 14) (data : WriteData) :
    s.serveWrite off data = .next (s.respond slverr) ∨
    (∃ w, off.toNat = 0 ∧ data = .four w ∧ s.serveWrite off data = acknowledge (execWord w s)) ∨
    (∃ r v, locate s.params off.toNat = some (.reg r) ∧ r ≠ .cmd ∧ data = .four v ∧
      s.serveWrite off data = .next ((s.regWrite v r).respond okayWrite)) ∨
    (∃ b i v, locate s.params off.toNat = some (.byte b i) ∧ data = .one v ∧ b.hostWritable = true ∧
      s.serveWrite off data = .next ((s.writeBufByte b i v).respond okayWrite)) ∨
    (∃ b i v, locate s.params off.toNat = some (.byte b i) ∧ data = .one v ∧ b.hostWritable = false ∧
      s.serveWrite off data = .next (s.respond okayWrite)) := by
  unfold State.serveWrite
  split
  · next w h => exact .inr (.inl ⟨w, locate_eq_reg h, rfl, rfl⟩)
  · next r v hr h => exact .inr (.inr (.inl ⟨r, v, h, fun hc => hr hc, rfl, rfl⟩))
  · next b i v h =>
    cases hb : b.hostWritable
    · exact .inr (.inr (.inr (.inr ⟨b, i, v, h, rfl, hb, by simp⟩)))
    · exact .inr (.inr (.inr (.inl ⟨b, i, v, h, rfl, hb, by simp⟩)))
  · exact .inl rfl

/-- All a write to a register other than CMD can do: one field changes, or none. -/
theorem State.regWrite_cases (s : State) (v : Word) (r : Reg) :
    s.regWrite v r = s ∨ s.regWrite v r = { s with anyErr := false } ∨
    s.regWrite v r = { s with alphaLen := v.setWidth 9 } ∨ s.regWrite v r = { s with inLen := v.setWidth 16 } ∨
    (∃ t, s.regWrite v r = { s with time := t }) ∨ (∃ c, s.regWrite v r = { s with ctr := c }) := by
  cases r with
  | status =>
    simp only [State.regWrite]
    split
    · exact .inr (.inl rfl)
    · exact .inl rfl
  | alphaLen => exact .inr (.inr (.inl rfl))
  | inLen => exact .inr (.inr (.inr (.inl rfl)))
  | timeLo => exact .inr (.inr (.inr (.inr (.inl ⟨_, rfl⟩))))
  | timeHi => exact .inr (.inr (.inr (.inr (.inl ⟨_, rfl⟩))))
  | ctrLo => exact .inr (.inr (.inr (.inr (.inr ⟨_, rfl⟩))))
  | ctrHi => exact .inr (.inr (.inr (.inr (.inr ⟨_, rfl⟩))))
  | _ => exact .inl rfl

end Sys2Proof.Machine
end

