-- ==== Sys2Proof/Laws/Commands.lean ====
section
/-! SUPPORT. The commands: for each one all it can do, said once; that every one of them ends in a report, so that no
step stops; and what the checks of a configuration give. -/

namespace Sys2Proof.Machine

/-- All CFG can do (R133). -/
theorem execCfg_cases (n : Nat) (ci rp pg pe : Bool) (pad : Byte) (s : State) :
    (∃ e, cfgCheck n ci pg pe pad s.alphaLen.toNat (s.readBuf 0 .alpha (2 ^ n)) = some e ∧
      execCfg n ci rp pg pe pad s = .next (s.clearCfg.report e 0#16)) ∨
    (cfgCheck n ci pg pe pad s.alphaLen.toNat (s.readBuf 0 .alpha (2 ^ n)) = none ∧
      execCfg n ci rp pg pe pad s = .next ((s.latchCodec
        { n := BitVec.ofNat 4 n, ci := ci, rp := rp, pg := pg, pe := pe, pad := pad, valid := true }
        (s.readBuf 0 .alpha (2 ^ n))).report .ok 0#16)) := by
  unfold execCfg
  cases h : cfgCheck n ci pg pe pad s.alphaLen.toNat (s.readBuf 0 .alpha (2 ^ n)) with
  | none => exact .inr ⟨rfl, by simp [h, succeed]⟩
  | some e => exact .inl ⟨e, rfl, by simp [h, fail]⟩

/-- The string ENC makes of its input (R137). -/
def State.encOutput (s : State) : List Byte :=
  encString s.cfg.n.toNat s.cfg.rp s.cfg.pg s.cfg.pad s.symbol (s.readBuf 0 .inBuf s.inLen.toNat)

/-- All ENC can do (R137, R142). -/
theorem execEnc_cases (s : State) :
    (s.cfg.valid = false ∧ execEnc s = .next (s.report .noCfg 0#16)) ∨
    (s.cfg.valid = true ∧ s.inCap < s.inLen.toNat ∧ execEnc s = .next (s.report .len 0#16)) ∨
    (s.cfg.valid = true ∧ s.inLen.toNat ≤ s.inCap ∧ s.outCap < s.encOutput.length ∧
      execEnc s = .next (s.report .ovf 0#16)) ∨
    (s.cfg.valid = true ∧ s.inLen.toNat ≤ s.inCap ∧ s.encOutput.length ≤ s.outCap ∧
      execEnc s = .next ((s.putOutput s.encOutput).report .ok 0#16)) := by
  unfold execEnc
  cases hv : s.cfg.valid
  · exact .inl ⟨rfl, by simp [fail]⟩
  · by_cases hl : s.inLen.toNat > s.inCap
    · exact .inr (.inl ⟨rfl, hl, by simp [fail, hl]⟩)
    · by_cases ho : s.encOutput.length > s.outCap
      · refine .inr (.inr (.inl ⟨rfl, by omega, ho, ?_⟩))
        unfold State.encOutput at ho
        simp [fail, hl, ho]
      · refine .inr (.inr (.inr ⟨rfl, by omega, by omega, ?_⟩))
        unfold State.encOutput at ho ⊢
        simp only [Bool.true_eq_false, if_false, hl, ho, succeed]

/-- The symbols DEC is left with when the pads are stripped (R151). -/
def State.decLength (s : State) : Nat :=
  (stripPads s.cfg.pe s.cfg.pad (s.readBuf 0 .inBuf s.inLen.toNat)).length

/-- The values DEC looks up (R152), or the index of the first symbol without one. -/
def State.decValues (s : State) : Except Nat (List Nat) :=
  symbolValues (symbolValue s.cfg.n.toNat s.cfg.ci s.symbol) 0 (s.readBuf 1 .inBuf s.decLength)

/-- All DEC can do (R150, R155). -/
theorem execDec_cases (s : State) :
    (s.cfg.valid = false ∧ execDec s = .next (s.report .noCfg 0#16)) ∨
    (s.cfg.valid = true ∧ s.inCap < s.inLen.toNat ∧ execDec s = .next (s.report .len 0#16)) ∨
    (∃ i, s.cfg.valid = true ∧ s.inLen.toNat ≤ s.inCap ∧ s.decValues = .error i ∧
      execDec s = .next (s.report .badSym (BitVec.ofNat 16 i))) ∨
    (∃ vals, s.cfg.valid = true ∧ s.inLen.toNat ≤ s.inCap ∧ s.decValues = .ok vals ∧
      s.outCap < decLen s.cfg.n.toNat vals.length ∧ execDec s = .next (s.report .ovf 0#16)) ∨
    (∃ vals, s.cfg.valid = true ∧ s.inLen.toNat ≤ s.inCap ∧ s.decValues = .ok vals ∧
      decLen s.cfg.n.toNat vals.length ≤ s.outCap ∧
      execDec s = .next ((s.putOutput (decBytes s.cfg.n.toNat vals)).report .ok 0#16)) := by
  have hdec : execDec s = if s.cfg.valid = false then fail .noCfg 0#16 s
      else if s.inLen.toNat > s.inCap then fail .len 0#16 s
      else match s.decValues with
        | .error i => fail .badSym (BitVec.ofNat 16 i) s
        | .ok vals => if decLen s.cfg.n.toNat vals.length > s.outCap then fail .ovf 0#16 s
          else succeed (s.putOutput (decBytes s.cfg.n.toNat vals)) := rfl
  rw [hdec]
  cases hv : s.cfg.valid
  · exact .inl ⟨rfl, by simp [fail]⟩
  · by_cases hl : s.inLen.toNat > s.inCap
    · exact .inr (.inl ⟨rfl, hl, by simp [fail, hl]⟩)
    · cases hd : s.decValues with
      | error i => exact .inr (.inr (.inl ⟨i, rfl, by omega, rfl, by simp [fail, hl]⟩))
      | ok vals =>
        by_cases ho : decLen s.cfg.n.toNat vals.length > s.outCap
        · exact .inr (.inr (.inr (.inl ⟨vals, rfl, by omega, rfl, ho, by simp [fail, hl, ho]⟩)))
        · exact .inr (.inr (.inr (.inr ⟨vals, rfl, by omega, rfl, by omega, by simp [succeed, hl, ho]⟩)))

/-- All XFER can do (R157). -/
theorem execXfer_cases (s : State) :
    (s.inCap < s.outLen.toNat ∧ execXfer s = .next (s.report .ovf 0#16)) ∨
    (s.outLen.toNat ≤ s.inCap ∧
      execXfer s = .next ((s.putInput (s.readBuf 0 .outBuf s.outLen.toNat)).report .ok 0#16)) := by
  unfold execXfer
  by_cases h : s.outLen.toNat > s.inCap
  · exact .inl ⟨h, by simp [fail, h]⟩
  · exact .inr ⟨by omega, by simp [succeed, h]⟩

/-- The state a command leaves before STATUS and ERRINFO are written, its code and its information: every command
ends in a report (R233), and in nothing else. -/
theorem exec_reports (i : Instr) (s : State) : ∃ u e info, exec i s = .next (State.report u e info) := by
  cases i with
  | nop => exact ⟨_, _, _, rfl⟩
  | cfg n ci rp pg pe pad =>
    rcases execCfg_cases n ci rp pg pe pad s with ⟨_, _, h⟩ | ⟨_, h⟩ <;> exact ⟨_, _, _, h⟩
  | preset32 => exact ⟨_, _, _, rfl⟩
  | enc => rcases execEnc_cases s with ⟨_, h⟩ | ⟨_, _, h⟩ | ⟨_, _, _, h⟩ | ⟨_, _, _, h⟩ <;> exact ⟨_, _, _, h⟩
  | dec =>
    rcases execDec_cases s with ⟨_, h⟩ | ⟨_, _, h⟩ | ⟨_, _, _, _, h⟩ | ⟨_, _, _, _, _, h⟩ | ⟨_, _, _, _, _, h⟩ <;>
      exact ⟨_, _, _, h⟩
  | xfer => rcases execXfer_cases s with ⟨_, h⟩ | ⟨_, h⟩ <;> exact ⟨_, _, _, h⟩
  | tstep => exact ⟨_, _, _, rfl⟩
  | ser => exact ⟨_, _, _, rfl⟩
  | setlen imm => exact ⟨_, _, _, rfl⟩
  | trunc => exact ⟨_, _, _, rfl⟩
  | fmt => exact ⟨_, _, _, rfl⟩
  | otp => exact ⟨_, _, _, rfl⟩
  | srst => exact ⟨_, _, _, rfl⟩

/-- All a command word can do (R78). -/
theorem execWord_cases (w : Word) (s : State) :
    (∃ i, decode w = .ok i ∧ execWord w s = exec i s) ∨
    (∃ e, decode w = .error e ∧ execWord w s = .next (s.report .illegal 0#16)) := by
  unfold execWord
  cases h : decode w with
  | ok i => exact .inl ⟨i, rfl, rfl⟩
  | error e => exact .inr ⟨e, rfl, rfl⟩

/-- A command word always leaves a next state. -/
theorem execWord_next (w : Word) (s : State) : ∃ t, execWord w s = .next t := by
  rcases execWord_cases w s with ⟨i, _, h⟩ | ⟨_, _, h⟩
  · obtain ⟨u, e, info, he⟩ := exec_reports i s
    exact ⟨_, h.trans he⟩
  · exact ⟨_, h⟩

/-- The checks of R134 all pass exactly when these hold. -/
theorem cfgCheck_eq_none (n : Nat) (ci pg pe : Bool) (pad : Byte) (alphaLen : Nat) (alpha : List Byte) :
    cfgCheck n ci pg pe pad alphaLen alpha = none ↔
      1 ≤ n ∧ n ≤ 8 ∧ alphaLen = 2 ^ n ∧ (pg = true → pe = true) ∧ (alpha.map (charKey ci)).Nodup ∧
      (pe = true → charKey ci pad ∉ alpha.map (charKey ci)) := by
  unfold cfgCheck
  by_cases h1 : 1 ≤ n ∧ n ≤ 8
  · by_cases h2 : alphaLen = 2 ^ n
    · by_cases h3 : (alpha.map (charKey ci)).Nodup
      · cases pg <;> cases pe <;> simp [h1, h2, h3]
      · cases pg <;> cases pe <;> simp [h1, h2, h3]
    · simp [h1, h2]
  · simp only [h1, not_false_eq_true, if_true, reduceCtorEq, false_iff]
    exact fun h => h1 ⟨h.1, h.2.1⟩

@[simp] theorem base32Alphabet_length : base32Alphabet.length = 32 := rfl

@[simp] theorem counterBytes_length (c : BitVec 64) : (counterBytes c).length = 8 := by simp [counterBytes]

@[simp] theorem codeDigits_length (d value : Nat) : (codeDigits d value).length = d := by simp [codeDigits]

@[simp] theorem decBytes_length (n : Nat) (vals : List Nat) : (decBytes n vals).length = decLen n vals.length := by
  simp [decBytes]

/-- The values DEC finds are as many as the symbols. -/
theorem symbolValues_length (f : Byte → Option Nat) (cs : List Byte) :
    ∀ (i : Nat) (vals : List Nat), symbolValues f i cs = .ok vals → vals.length = cs.length := by
  induction cs with
  | nil => intro i vals h; simp only [symbolValues, Except.ok.injEq] at h; simp [← h]
  | cons c cs ih =>
    intro i vals h
    simp only [symbolValues] at h
    split at h
    · simp at h
    · next v _ =>
      split at h
      · simp at h
      · next vs hvs =>
        simp only [Except.ok.injEq] at h
        rw [← h, List.length_cons, List.length_cons, ih _ _ hvs]

end Sys2Proof.Machine
end

