-- ==== Sys2Proof/Laws/Operands.lean ====
section
/-! SUPPORT. The operand functions: one lemma each for what it computes, in terms a proof can use without unfolding
it: bit lists and their values, groups, lengths, pads, symbol look-up, digits. -/

namespace Sys2Proof.Machine

/-! ### Bit lists and their values -/

theorem bitsValue_foldl (bits : List Bool) (v : Nat) :
    bits.foldl (fun v b => 2 * v + b.toNat) v = v * 2 ^ bits.length + bitsValue bits := by
  induction bits generalizing v with
  | nil => simp [bitsValue]
  | cons b bs ih =>
    simp only [List.foldl_cons, bitsValue, List.length_cons]
    rw [ih, ih (2 * 0 + b.toNat), pow_succ]
    ring

@[simp] theorem bitsValue_nil : bitsValue [] = 0 := rfl

theorem bitsValue_cons (b : Bool) (bits : List Bool) :
    bitsValue (b :: bits) = b.toNat * 2 ^ bits.length + bitsValue bits := by
  rw [bitsValue, List.foldl_cons, bitsValue_foldl]
  simp

theorem bitsValue_append (xs ys : List Bool) : bitsValue (xs ++ ys) = bitsValue xs * 2 ^ ys.length + bitsValue ys := by
  rw [bitsValue, List.foldl_append, bitsValue_foldl]
  rfl

theorem bitsValue_lt (bits : List Bool) : bitsValue bits < 2 ^ bits.length := by
  induction bits with
  | nil => simp
  | cons b bs ih =>
    rw [bitsValue_cons, List.length_cons, pow_succ]
    cases b <;> simp <;> omega

theorem bitsValue_replicate_false (n : Nat) : bitsValue (List.replicate n false) = 0 := by
  induction n with
  | zero => rfl
  | succ n ih => rw [List.replicate_succ, bitsValue_cons, ih]; simp

/-- The value of a list of bits given by position: the first is the most significant (R11). -/
theorem bitsValue_map_range (w : Nat) (f : Nat → Bool) :
    bitsValue ((List.range w).map f) = ∑ b ∈ Finset.range w, (f b).toNat * 2 ^ (w - 1 - b) := by
  induction w with
  | zero => rfl
  | succ w ih =>
    rw [List.range_succ, List.map_append, bitsValue_append, ih, Finset.sum_range_succ, Finset.sum_mul]
    congr 1
    · refine Finset.sum_congr rfl (fun b hb => ?_)
      have := Finset.mem_range.1 hb
      rw [List.length_map, List.length_singleton, mul_assoc, ← pow_add]
      congr 2
      omega
    · simp [bitsValue_cons]

@[simp] theorem bitsOf_length (w v : Nat) : (bitsOf w v).length = w := by simp [bitsOf]

/-- The bits of a value are its bits, most significant first. -/
theorem bitsOf_getElem? (w v b : Nat) (h : b < w) : (bitsOf w v)[b]? = some (v.testBit (w - 1 - b)) := by
  simp [bitsOf, h]

/-- Reading back the bits of a value gives its low bits. -/
theorem bitsValue_bitsOf (w v : Nat) : bitsValue (bitsOf w v) = v % 2 ^ w := by
  induction w generalizing v with
  | zero => simp [bitsOf, Nat.mod_one]
  | succ w ih =>
    have hsplit : bitsOf (w + 1) v = bitsOf w (v / 2) ++ [v.testBit 0] := by
      unfold bitsOf
      rw [List.range_succ, List.map_append]
      congr 1
      · refine List.map_congr_left (fun b hb => ?_)
        have hb' := List.mem_range.1 hb
        rw [Nat.testBit_div_two]
        congr 1
        omega
      · simp
    rw [hsplit, bitsValue_append, ih, bitsValue_cons]
    simp only [List.length_singleton, List.length_nil, bitsValue_nil, Nat.testBit_zero]
    rw [show 2 ^ (w + 1) = 2 * 2 ^ w by ring, Nat.mod_mul]
    have : (decide (v % 2 = 1)).toNat = v % 2 := by
      rcases Nat.mod_two_eq_zero_or_one v with h | h <;> simp [h]
    rw [this]
    ring

@[simp] theorem byteBits_length (bs : List Byte) : (byteBits bs).length = 8 * bs.length := by
  induction bs with
  | nil => rfl
  | cons b bs ih =>
    simp only [byteBits, List.flatMap_cons, List.length_append, bitsOf_length, List.length_cons] at ih ⊢
    omega

/-- Bit `j` of a byte string: bit `7 - j mod 8` of byte `j div 8` (R12). -/
theorem byteBits_getElem? (bs : List Byte) (j : Nat) :
    (byteBits bs)[j]? = (bs[j / 8]?).map (fun b => b.toNat.testBit (7 - j % 8)) := by
  induction bs generalizing j with
  | nil => simp [byteBits]
  | cons b bs ih =>
    have hcons : byteBits (b :: bs) = bitsOf 8 b.toNat ++ byteBits bs := rfl
    rw [hcons]
    by_cases h : j < 8
    · rw [List.getElem?_append_left (by simpa using h), bitsOf_getElem? _ _ _ h, Nat.div_eq_of_lt h,
        Nat.mod_eq_of_lt h]
      simp
    · rw [List.getElem?_append_right (by simp; omega), bitsOf_length, ih]
      have h1 : j / 8 = (j - 8) / 8 + 1 := by omega
      have h2 : (j - 8) % 8 = j % 8 := by omega
      rw [h1, h2, List.getElem?_cons_succ]

/-- A group, by position (R11), for a stream that holds all of it. -/
theorem group_eq_sum (s : List Bool) (p w : Nat) (f : Nat → Bool) (h : ∀ b, b < w → s[p + b]? = some (f b)) :
    group s p w = ∑ b ∈ Finset.range w, (f b).toNat * 2 ^ (w - 1 - b) := by
  rw [← bitsValue_map_range, group]
  congr 1
  refine List.ext_getElem? (fun b => ?_)
  by_cases hb : b < w
  · rw [List.getElem?_take_of_lt hb, List.getElem?_drop, h b hb]
    simp [hb]
  · rw [List.getElem?_eq_none (by simp; omega), List.getElem?_eq_none (by simp; omega)]

/-! ### Encoding -/

/-- How many symbols the body of ENC has (R138). -/
theorem encValues_length (n : Nat) (rp : Bool) (bs : List Byte) :
    (encValues n rp bs).length =
      (8 * bs.length) / n + (if (8 * bs.length) % n ≠ 0 ∧ rp = true then 1 else 0) := by
  simp only [encValues, List.length_append, List.length_map, List.length_range]
  split <;> simp

/-- How long the output of ENC is (R138, R140). -/
theorem encString_length (n : Nat) (rp pg : Bool) (pad : Byte) (sym : Nat → Byte) (bs : List Byte) :
    (encString n rp pg pad sym bs).length =
      (encValues n rp bs).length + (if pg then padCount n (encValues n rp bs).length else 0) := by
  cases pg <;> simp [encString]

/-! ### Decoding -/

/-- What the stripped string is: the string without a run of pads at its end, and it ends in no pad (R151). -/
theorem stripPads_spec (pad : Byte) (cs : List Byte) :
    ∃ k, cs = stripPads true pad cs ++ List.replicate k pad ∧
      ∀ c, (stripPads true pad cs).getLast? = some c → c ≠ pad := by
  simp only [stripPads, if_true]
  have hrev : ∀ l : List Byte, ∃ k, l = List.replicate k pad ++ l.dropWhile (fun c => c == pad) ∧
      ∀ c, (l.dropWhile (fun c => c == pad)).head? = some c → c ≠ pad := by
    intro l
    induction l with
    | nil => exact ⟨0, by simp⟩
    | cons c l ih =>
      by_cases hc : c = pad
      · obtain ⟨k, hk, hh⟩ := ih
        subst hc
        refine ⟨k + 1, ?_, ?_⟩
        · simp only [List.dropWhile_cons, beq_self_eq_true, if_true, List.replicate_succ, List.cons_append, ← hk]
        · simpa [List.dropWhile_cons] using hh
      · refine ⟨0, ?_, ?_⟩
        · simp [hc]
        · simp [hc]
  obtain ⟨k, hk, hh⟩ := hrev cs.reverse
  refine ⟨k, ?_, ?_⟩
  · have := congrArg List.reverse hk
    simpa using this
  · intro c hc
    exact hh c (by simpa [List.getLast?_reverse] using hc)

/-- Without a pad character nothing is stripped (R151). -/
@[simp] theorem stripPads_false (pad : Byte) (cs : List Byte) : stripPads false pad cs = cs := rfl

/-- A value DEC finds is below `2^n` and matches (R152). -/
theorem symbolValue_eq_some {n : Nat} {ci : Bool} {sym : Nat → Byte} {c : Byte} {v : Nat}
    (h : symbolValue n ci sym c = some v) : v < 2 ^ n ∧ charKey ci c = charKey ci (sym v) := by
  have h1 := List.mem_of_find?_eq_some h
  have h2 := List.find?_some h
  simp only [matchSym, beq_iff_eq] at h2
  exact ⟨List.mem_range.1 h1, h2⟩

/-- DEC finds no value exactly if no symbol matches (R152). -/
theorem symbolValue_eq_none {n : Nat} {ci : Bool} {sym : Nat → Byte} {c : Byte} :
    symbolValue n ci sym c = none ↔ ∀ v, v < 2 ^ n → charKey ci c ≠ charKey ci (sym v) := by
  simp [symbolValue, List.find?_eq_none, matchSym]

/-- The look-up succeeds exactly with the values of all symbols. -/
theorem symbolValues_eq_ok (f : Byte → Option Nat) (cs : List Byte) :
    ∀ (i : Nat) (vals : List Nat), symbolValues f i cs = .ok vals ↔ cs.map f = vals.map some := by
  induction cs with
  | nil => intro i vals; cases vals <;> simp [symbolValues]
  | cons c cs ih =>
    intro i vals
    simp only [symbolValues]
    cases hc : f c with
    | none => cases vals <;> simp [hc]
    | some v =>
      cases hr : symbolValues f (i + 1) cs with
      | error j =>
        simp only [reduceCtorEq, false_iff]
        intro h
        cases vals with
        | nil => simp at h
        | cons w ws =>
          simp only [List.map_cons, List.cons.injEq] at h
          rw [← ih (i + 1) ws, hr] at h
          simp at h
      | ok vs =>
        have hvs := (ih (i + 1) vs).1 hr
        simp only [Except.ok.injEq, List.map_cons, hc, hvs]
        constructor
        · intro h; rw [← h, List.map_cons]
        · intro h
          have : (v :: vs).map some = vals.map some := h
          exact List.map_injective_iff.2 (Option.some_injective _) this

/-- The look-up fails with the lowest index of a symbol without a value (R152). -/
theorem symbolValues_eq_error (f : Byte → Option Nat) (cs : List Byte) :
    ∀ (i j : Nat), symbolValues f i cs = .error j ↔
      ∃ k c, j = i + k ∧ cs[k]? = some c ∧ f c = none ∧ ∀ l d, l < k → cs[l]? = some d → f d ≠ none := by
  induction cs with
  | nil => intro i j; simp [symbolValues]
  | cons c cs ih =>
    intro i j
    simp only [symbolValues]
    cases hc : f c with
    | none =>
      simp only [Except.error.injEq]
      constructor
      · rintro rfl
        exact ⟨0, c, by simp, by simp, hc, by simp⟩
      · rintro ⟨k, d, rfl, hk, hd, hl⟩
        cases k with
        | zero => rfl
        | succ k => exact absurd hc (hl 0 c (by omega) (by simp))
    | some v =>
      have key : (∃ k d, j = i + k ∧ (c :: cs)[k]? = some d ∧ f d = none ∧
            ∀ l e, l < k → (c :: cs)[l]? = some e → f e ≠ none) ↔ symbolValues f (i + 1) cs = .error j := by
        rw [ih]
        constructor
        · rintro ⟨k, d, rfl, hk, hd, hl⟩
          cases k with
          | zero => simp only [List.getElem?_cons_zero, Option.some.injEq] at hk; subst hk; simp [hc] at hd
          | succ k =>
            exact ⟨k, d, by omega, by simpa using hk, hd, fun l e hlt he => hl (l + 1) e (by omega) (by simpa using he)⟩
        · rintro ⟨k, d, rfl, hk, hd, hl⟩
          refine ⟨k + 1, d, by omega, by simpa using hk, hd, fun l e hlt he => ?_⟩
          cases l with
          | zero => simp only [List.getElem?_cons_zero, Option.some.injEq] at he; subst he; simp [hc]
          | succ l => exact hl l e (by omega) (by simpa using he)
      rw [key]
      cases symbolValues f (i + 1) cs <;> simp

/-- A byte of DEC's output, by number (R150). -/
theorem decBytes_getElem? (n : Nat) (vals : List Nat) (j : Nat) (h : j < decLen n vals.length) :
    (decBytes n vals)[j]? = some (BitVec.ofNat 8 (group (vals.flatMap (bitsOf n) ++
      List.replicate (8 * decLen n vals.length - n * vals.length) false) (8 * j) 8)) := by
  simp [decBytes, h]

/-! ### The one-time code -/

/-- A byte of the serialised counter, by number (R181). -/
theorem counterBytes_getElem? (c : BitVec 64) (i : Nat) (h : i < 8) :
    (counterBytes c)[i]? = some (BitVec.ofNat 8 (c.toNat / 2 ^ (56 - 8 * i))) := by
  simp only [counterBytes, List.getElem?_map, List.getElem?_range h, Option.map_some, Option.some.injEq]
  apply BitVec.eq_of_toNat_eq
  simp [BitVec.extractLsb'_toNat, Nat.shiftRight_eq_div_pow]

/-- A digit of the code, by number (R184). -/
theorem codeDigits_getElem? (d value j : Nat) (h : j < d) :
    (codeDigits d value)[j]? = some (BitVec.ofNat 8 (0x30 + (value % 10 ^ d / 10 ^ (d - 1 - j)) % 10)) := by
  simp [codeDigits, h]

/-- The truncation offset never reaches past the digest (R183). -/
theorem truncOffset_le (b : Byte) : truncOffset b ≤ 15 := by
  unfold truncOffset
  rw [BitVec.toNat_and]
  exact Nat.and_le_right

end Sys2Proof.Machine
end

