-- ==== Sys2Proof/Laws/PerInstr.lean ====
section
/-! SUPPORT. The family of statements made per command: its word lies in its own row of the opcode map. -/

namespace Sys2Proof.Laws.EncodesToItsRow

/-- The word of the command matches a row of the opcode map (R105) that bears the command's mnemonic. -/
def Statement (i : Instr) : Prop := ∃ r ∈ opcodeMap, r.mnemonic = i.mnemonic ∧ r.matches (encode i) = true

theorem nop : Statement .nop := ⟨⟨"NOP", 0x00000000#32, 0xFFFFFFFF#32⟩, by decide, rfl, by decide⟩

theorem cfg (n : Nat) (ci rp pg pe : Bool) (pad : Byte) : Statement (.cfg n ci rp pg pe pad) := by
  refine ⟨⟨"CFG", 0x00000001#32, 0xFF0000FF#32⟩, by decide, rfl, ?_⟩
  simp only [OpcodeRow.matches, encode, beq_iff_eq]
  generalize BitVec.ofNat 4 n = m
  apply BitVec.eq_of_getLsbD_eq
  intro j hj
  simp only [wordFC, BitVec.getLsbD_and, BitVec.getLsbD_append]
  interval_cases j <;> simp

theorem preset32 : Statement .preset32 := ⟨⟨"PRESET32", 0x00000002#32, 0xFFFFFFFF#32⟩, by decide, rfl, by decide⟩

theorem enc : Statement .enc := ⟨⟨"ENC", 0x00000010#32, 0xFFFFFFFF#32⟩, by decide, rfl, by decide⟩

theorem dec : Statement .dec := ⟨⟨"DEC", 0x00000011#32, 0xFFFFFFFF#32⟩, by decide, rfl, by decide⟩

theorem xfer : Statement .xfer := ⟨⟨"XFER", 0x00000012#32, 0xFFFFFFFF#32⟩, by decide, rfl, by decide⟩

theorem tstep : Statement .tstep := ⟨⟨"TSTEP", 0x00000020#32, 0xFFFFFFFF#32⟩, by decide, rfl, by decide⟩

theorem ser : Statement .ser := ⟨⟨"SER", 0x00000021#32, 0xFFFFFFFF#32⟩, by decide, rfl, by decide⟩

theorem setlen (imm : Byte) : Statement (.setlen imm) := by
  refine ⟨⟨"SETLEN", 0x00000022#32, 0xFFFF00FF#32⟩, by decide, rfl, ?_⟩
  simp only [OpcodeRow.matches, encode, beq_iff_eq]
  apply BitVec.eq_of_getLsbD_eq
  intro j hj
  simp only [wordFI, BitVec.getLsbD_and, BitVec.getLsbD_append]
  interval_cases j <;> simp

theorem trunc : Statement .trunc := ⟨⟨"TRUNC", 0x00000023#32, 0xFFFFFFFF#32⟩, by decide, rfl, by decide⟩

theorem fmt : Statement .fmt := ⟨⟨"FMT", 0x00000024#32, 0xFFFFFFFF#32⟩, by decide, rfl, by decide⟩

theorem otp : Statement .otp := ⟨⟨"OTP", 0x00000025#32, 0xFFFFFFFF#32⟩, by decide, rfl, by decide⟩

theorem srst : Statement .srst := ⟨⟨"SRST", 0x000000FF#32, 0xFFFFFFFF#32⟩, by decide, rfl, by decide⟩

end Sys2Proof.Laws.EncodesToItsRow
end

