-- ==== Sys2Proof/Tests/Slice0.lean ====
section
/-! SUPPORT. Tests of single steps against values of the spec (95_test_vectors.md and the encodings of
30_encoding.md), and for every obligation with hypotheses a witness that its hypotheses can be met, clause by
clause. -/

namespace Sys2Proof.Tests
open Sys2Proof.Machine Sys2Proof.Spec

/-! ### Small states -/

/-- Cells with the bytes `vs` at `a`, `a + 1` and so on. -/
def cells (a : Nat) : List Nat → List Host.Cell
  | [] => []
  | v :: vs => (a, BitVec.ofNat 8 v) :: cells (a + 1) vs

/-- `s` with the bytes `vs` in IN_BUF, IN_LEN of them, and nothing else in storage. -/
def input (vs : List Nat) (s : State) : State :=
  { s with mem := ⟨cells 0x1000 vs⟩, inLen := BitVec.ofNat 16 vs.length }

/-- `s` with the bytes `vs` in OUT_BUF, OUT_LEN of them, and nothing else in storage. -/
def output (vs : List Nat) (s : State) : State :=
  { s with mem := ⟨cells 0x2000 vs⟩, outLen := BitVec.ofNat 16 vs.length }

/-- `s` with the bytes `vs` staged in ALPHA, and nothing else in storage. -/
def staged (vs : List Nat) (len : BitVec 9) (s : State) : State := { s with mem := ⟨cells 0x100 vs⟩, alphaLen := len }

/-- `s` with a configuration and its symbols latched. -/
def codec (c : CfgReg) (syms : List Nat) (s : State) : State := { s with cfg := c, activeAlpha := ⟨cells 0 syms⟩ }

/-- `s` with other parameters. -/
def sized (i o : Capacity) (stable : Bool) (s : State) : State :=
  { s with params := { s.params with inCap := i, outCap := o, stableUninit := stable } }

/-- `s` with one event at its port. -/
def facing (e : PortEvent) (s : State) : State := { s with port := [e] }

/-- A width-`n` configuration. -/
def conf (n : BitVec 4) (ci rp pg pe : Bool) (pad : Byte) : CfgReg :=
  { n := n, ci := ci, rp := rp, pg := pg, pe := pe, pad := pad, valid := true }

/-- "01234567" -/
def octal : List Nat := [0x30, 0x31, 0x32, 0x33, 0x34, 0x35, 0x36, 0x37]

/-- The base32 alphabet of RFC 4648, written out. -/
def base32 : List Nat :=
  [0x41, 0x42, 0x43, 0x44, 0x45, 0x46, 0x47, 0x48, 0x49, 0x4A, 0x4B, 0x4C, 0x4D] ++
  [0x4E, 0x4F, 0x50, 0x51, 0x52, 0x53, 0x54, 0x55, 0x56, 0x57, 0x58, 0x59, 0x5A] ++
  [0x32, 0x33, 0x34, 0x35, 0x36, 0x37]

/-- n = 3 with every flag of P5 (95_test_vectors.md). -/
def octalBlock : State := codec (conf 3#4 false true true true 0x3D#8) octal State.reset

/-- n = 3 with no flag. -/
def octalBare : State := codec (conf 3#4 false false false false 0#8) octal State.reset

/-- The block as PRESET32 leaves it. -/
def preset : State := codec presetCfg base32 State.reset

/-- n = 5 with no flag. -/
def fiveBits : State := codec (conf 5#4 false false false false 0#8) base32 State.reset

/-- n = 8, the identity codec. -/
def identityBlock : State := codec (conf 8#4 false false false false 0#8) (List.range 256) State.reset

/-- n = 1 over "01". -/
def binaryBlock : State := codec (conf 1#4 false false false false 0#8) [0x30, 0x31] State.reset

/-- A 20-byte digest in DIGEST. -/
def digested (vs : List Nat) (s : State) : State := { s with mem := ⟨cells 0x200 vs⟩ }

/-- The digest of RFC 4226 section 5.4, first row of 95_test_vectors.md 2.6. -/
def rfcDigest : List Nat :=
  [0x1F, 0x86, 0x98, 0x69, 0x0E, 0x02, 0xCA, 0x16, 0x61, 0x85] ++
  [0x50, 0xEF, 0x7F, 0x19, 0xDA, 0x8E, 0x94, 0x5B, 0x55, 0x5A]

/-- The digest of `getCode("SECRET", 0)`, 95_test_vectors.md 1.1. -/
def secretDigest : List Nat :=
  [0x0B, 0xB7, 0xF2, 0xB0, 0xF8, 0x16, 0x37, 0xA7, 0xEA, 0xB0] ++
  [0x92, 0x33, 0x7A, 0xE3, 0xEC, 0x5D, 0xF2, 0x47, 0xE0, 0x32]

/-! ### Reading an outcome -/

/-- The next state, or the reset state if there is none. -/
def nextOf : Host.Outcome State Fault Refusal → State
  | .next t => t
  | .fault _ => State.reset
  | .refused _ => State.reset

/-- The outcome is a next state that `p` accepts. -/
def after (o : Host.Outcome State Fault Refusal) (p : State → Bool) : Bool :=
  match o with
  | .next t => p t
  | .fault _ => false
  | .refused _ => false

/-- `k` bytes of storage from `a` on, as numbers. -/
def bytes (a k : Nat) (s : State) : List (Option Nat) :=
  (List.range k).map (fun i => (s.mem.byteAt (a + i)).map BitVec.toNat)

/-- The response of the transaction served last, as a code and a number. -/
def answered (s : State) : Option (Resp × Option Nat) := s.response.map (fun r => (r.resp, r.rdata.map BitVec.toNat))

theorem exec_nextOf (i : Instr) (s : State) : exec i s = .next (nextOf (exec i s)) := by
  obtain ⟨u, e, info, h⟩ := exec_reports i s
  rw [h]; rfl

theorem execWord_nextOf (w : Word) (s : State) : execWord w s = .next (nextOf (execWord w s)) := by
  obtain ⟨t, h⟩ := execWord_next w s
  rw [h]; rfl

theorem cellAt_listed (cs : List Host.Cell) (a : Nat) (h : cellAt cs a ≠ none) : ∃ c ∈ cs, c.1 = a := by
  induction cs with
  | nil => exact absurd rfl h
  | cons c cs ih =>
    obtain ⟨k, b⟩ := c
    by_cases hk : k = a
    · exact ⟨(k, b), by simp, hk⟩
    · simp only [cellAt, hk, if_false] at h
      obtain ⟨c, hc, he⟩ := ih h
      exact ⟨c, by simp [hc], he⟩

/-! ### The form of a command: what WellFormed refuses -/

theorem test_wellFormed_refuses_wide_n : (Instr.cfg 16 false false false false 0#8).wellFormed = false := by decide
theorem test_wellFormed_takes_15 : (Instr.cfg 15 true true true true 0xFF#8).wellFormed = true := by decide

/-! ### Decoding: words written out bit by bit from R102 and R105 -/

-- PAD 0011_1101, PE 1, PG 0, RP 1, CI 1, N 0101, OP 0000_0001
theorem test_decode_cfg : decode 0b00000000_00111101_1_0_1_1_0101_00000001#32 = .ok (.cfg 5 true true false true 0x3D#8) := by decide
-- each flag of CFG on its own: CI bit 12, RP bit 13, PG bit 14, PE bit 15
theorem test_decode_cfg_ci : decode 0b00000000_00000000_0_0_0_1_0001_00000001#32 = .ok (.cfg 1 true false false false 0#8) := by decide
theorem test_decode_cfg_rp : decode 0b00000000_00000000_0_0_1_0_1000_00000001#32 = .ok (.cfg 8 false true false false 0#8) := by decide
theorem test_decode_cfg_pg : decode 0b00000000_10000000_0_1_0_0_0000_00000001#32 = .ok (.cfg 0 false false true false 0x80#8) := by decide
theorem test_decode_cfg_pe : decode 0b00000000_00000001_1_0_0_0_1111_00000001#32 = .ok (.cfg 15 false false false true 0x01#8) := by decide
theorem test_decode_setlen : decode 0b0000000000000000_00001000_00100010#32 = .ok (.setlen 8#8) := by decide
theorem test_decode_setlen_255 : decode 0b0000000000000000_11111111_00100010#32 = .ok (.setlen 255#8) := by decide
theorem test_decode_nop : decode 0b000000000000000000000000_00000000#32 = .ok .nop := by decide
theorem test_decode_preset32 : decode 0b000000000000000000000000_00000010#32 = .ok .preset32 := by decide
theorem test_decode_enc : decode 0b000000000000000000000000_00010000#32 = .ok .enc := by decide
theorem test_decode_dec : decode 0b000000000000000000000000_00010001#32 = .ok .dec := by decide
theorem test_decode_xfer : decode 0b000000000000000000000000_00010010#32 = .ok .xfer := by decide
theorem test_decode_tstep : decode 0b000000000000000000000000_00100000#32 = .ok .tstep := by decide
theorem test_decode_ser : decode 0b000000000000000000000000_00100001#32 = .ok .ser := by decide
theorem test_decode_trunc : decode 0b000000000000000000000000_00100011#32 = .ok .trunc := by decide
theorem test_decode_fmt : decode 0b000000000000000000000000_00100100#32 = .ok .fmt := by decide
theorem test_decode_otp : decode 0b000000000000000000000000_00100101#32 = .ok .otp := by decide
theorem test_decode_srst : decode 0b000000000000000000000000_11111111#32 = .ok .srst := by decide

-- the illegal words of 95_test_vectors.md 2.8
theorem test_decode_unassigned_03 : decode 0x00000003#32 = .error (.unassignedOp 0x03#8) := by decide
theorem test_decode_enc_bit8 : decode 0x00000110#32 = .error (.reservedBits 0x10#8) := by decide
theorem test_decode_setlen_bit16 : decode 0x00010022#32 = .error (.reservedBits 0x22#8) := by decide
theorem test_decode_srst_bit8 : decode 0x000001FF#32 = .error (.reservedBits 0xFF#8) := by decide

/-! ### One step of each command, against 95_test_vectors.md -/

-- 2.8: ANYERR stays 1, STATUS 0x308 becomes 0x300
theorem test_nop_keeps_anyErr :
    after (exec .nop { preset with errCode := .badSym, errInfo := 2#16, anyErr := true })
      (fun t => t.regRead .status == 0x300#32 && t.errInfo == 0#16) = true := rfl

-- 2.1 row 2
theorem test_cfg_accepts :
    after (exec (.cfg 3 false true true true 0x3D#8) (staged octal 8#9 State.reset))
      (fun t => t.regRead .status == 0x200#32 && t.regRead .cfg == 0x00013DE3#32) = true := rfl

-- 2.1 row 18: the pad '0' is a symbol
theorem test_cfg_pad_is_a_symbol :
    after (execWord 0x00308301#32 (staged octal 8#9 preset))
      (fun t => t.regRead .status == 0x105#32 && t.regRead .cfg == 0#32) = true := rfl

-- 2.1
theorem test_preset32_registers :
    after (exec .preset32 State.reset)
      (fun t => t.regRead .status == 0x200#32 && t.regRead .cfg == 0x00013DB5#32) = true := rfl
theorem test_preset32_table :
    after (exec .preset32 State.reset)
      (fun t => t.activeAlpha.byteAt 0 == some 0x41#8 && t.activeAlpha.byteAt 31 == some 0x37#8) = true := rfl

-- 2.3: {A5 5A} is "512550=="; 2.2: "fo" is "MZXQ"
theorem test_enc_padded :
    after (exec .enc (input [0xA5, 0x5A] octalBlock)) (fun t => t.outLen == 8#16 &&
      bytes 0x2000 8 t == [0x35, 0x31, 0x32, 0x35, 0x35, 0x30, 0x3D, 0x3D].map some) = true := rfl
theorem test_enc_base32 :
    after (exec .enc (input [0x66, 0x6F] preset)) (fun t => t.outLen == 4#16 &&
      bytes 0x2000 5 t == [some 0x4D, some 0x5A, some 0x58, some 0x51, none]) = true := rfl

-- 2.2: "SECRET" in lower case is {91 05 12 4C}; "SE=CRET" fails at index 2
theorem test_dec_keeps_the_tail :
    after (exec .dec (input [0x73, 0x65, 0x63, 0x72, 0x65, 0x74] preset)) (fun t => t.outLen == 4#16 &&
      bytes 0x2000 5 t == [some 0x91, some 0x05, some 0x12, some 0x4C, none]) = true := rfl
theorem test_dec_bad_symbol :
    after (exec .dec (input [0x53, 0x45, 0x3D, 0x43, 0x52, 0x45, 0x54] preset)) (fun t => t.errCode == .badSym &&
      t.errInfo == 2#16 && t.outLen == 0#16) = true := rfl

-- 2.4: "MZXW6" after ENC "foo"; E_OVF with IN_CAP = 4
theorem test_xfer_copies :
    after (exec .xfer (output [0x4D, 0x5A, 0x58, 0x57, 0x36] preset)) (fun t => t.inLen == 5#16 && t.outLen == 5#16 &&
      bytes 0x1000 5 t == [0x4D, 0x5A, 0x58, 0x57, 0x36].map some) = true := rfl
theorem test_xfer_overflows :
    after (exec .xfer (sized ⟨4, by decide⟩ ⟨8, by decide⟩ false (output [0x4D, 0x5A, 0x58, 0x57, 0x36] preset)))
      (fun t => t.errCode == .ovf && t.inLen == 0#16 && t.outLen == 5#16) = true := rfl

-- 2.6
theorem test_tstep_row6 : after (exec .tstep { State.reset with time := 1111111109#64 }) (fun t => t.ctr == 37037036#64) = true := rfl
theorem test_tstep_largest :
    after (exec .tstep { State.reset with time := 0xFFFFFFFFFFFFFFFF#64 }) (fun t => t.ctr == 0x0888888888888888#64) = true := rfl
theorem test_ser_big_endian :
    after (exec .ser { State.reset with ctr := 0x0123456789ABCDEF#64 }) (fun t =>
      bytes 0x220 8 t == [0x01, 0x23, 0x45, 0x67, 0x89, 0xAB, 0xCD, 0xEF].map some) = true := rfl
theorem test_setlen_clamps : after (exec (.setlen 5#8) State.reset) (fun t => t.codeLen == 6#8) = true := rfl
theorem test_setlen_255 : after (exec (.setlen 255#8) State.reset) (fun t => t.codeLen == 255#8) = true := rfl
theorem test_trunc_rfc4226 :
    after (exec .trunc (digested rfcDigest State.reset)) (fun t => t.toff == 10#4 && t.tval == 0x50EF7F19#31) = true := rfl
theorem test_trunc_masks_bit31 :
    after (exec .trunc (digested (List.replicate 20 0xFF) State.reset)) (fun t => t.toff == 15#4 && t.tval == 0x7FFFFFFF#31) = true := rfl
theorem test_fmt_leading_zeros :
    after (exec .fmt { State.reset with tval := 0x7FFFFFFF#31, codeLen := 11#8 }) (fun t =>
      bytes 0x300 11 t == [0x30, 0x32, 0x31, 0x34, 0x37, 0x34, 0x38, 0x33, 0x36, 0x34, 0x37].map some) = true := rfl
theorem test_fmt_wraps :
    after (exec .fmt { State.reset with tval := 0x000F4240#31 }) (fun t => bytes 0x300 6 t == List.replicate 6 (some 0x30)) = true := rfl
theorem test_otp_secret :
    after (exec .otp (digested secretDigest State.reset)) (fun t => t.toff == 2#4 && t.tval == 0x72B0F816#31 &&
      bytes 0x300 6 t == [0x32, 0x30, 0x30, 0x34, 0x37, 0x30].map some) = true := rfl
-- 2.8
theorem test_srst_registers :
    after (exec .srst { preset with codeLen := 8#8, anyErr := true, ctr := 1#64 }) (fun t =>
      t.regRead .status == 0#32 && t.regRead .cfg == 0#32 && t.codeLen == 6#8 && t.ctr == 0#64) = true := rfl
theorem test_srst_keeps_buffers : after (exec .srst (input [0x66] preset)) (fun t => t.mem.byteAt 0x1000 == some 0x66#8) = true := rfl
-- 2.8: an ILLEGAL CFG does not clear CFG
theorem test_illegal_cfg :
    after (execWord 0x01000501#32 preset) (fun t => t.regRead .status == 0x301#32) = true := rfl

-- 2.9
theorem test_bus_status_size1 :
    after (step (facing (.bus (.read 0x004#14 .one)) State.reset)) (fun t => answered t == some (.slverr, some 0)) = true := rfl
theorem test_bus_alphaLen_bits :
    after (step (facing (.bus (.write 0x010#14 (.four 0xFFFFFFFF#32))) State.reset)) (fun t => t.regRead .alphaLen == 0x1FF#32) = true := rfl
theorem test_bus_status_write_ff :
    after (step (facing (.bus (.write 0x004#14 (.four 0x000000FF#32))) { State.reset with anyErr := true, errCode := .badSym }))
      (fun t => t.regRead .status == 0x108#32) = true := rfl
theorem test_placed_command_runs :
    after (step (State.reset.withFetchWord 32 0x00000822)) (fun t => t.codeLen == 8#8 && answered t == some (.okay, none)) = true := rfl

/-! ### Witnesses: states and operands that meet the hypotheses of the obligations -/

theorem test_EncodeOfDecode_hyp : decode 0x00000FF22#32 = .ok (.setlen 0xFF#8) := by decide

theorem test_DecoderFollows_hyp : ∃ r ∈ opcodeMap, r.matches 0x0000FF22#32 = true := ⟨⟨"SETLEN", 0x00000022#32, 0xFFFF00FF#32⟩, by decide, by decide⟩

-- one word for each way to be illegal, at the nearest bit
theorem test_IllegalWords_unassigned : illegalWord 0x00000003#32 := by unfold illegalWord; decide
theorem test_IllegalWords_cfg : illegalWord 0x01000501#32 := by unfold illegalWord; decide
theorem test_IllegalWords_setlen : illegalWord 0x00010022#32 := by unfold illegalWord; decide
theorem test_IllegalWords_f0 : illegalWord 0x000001FF#32 := by unfold illegalWord; decide

theorem test_StepRuns_hyp :
    (State.reset.placeCommand 0x00000822#32).port = .bus (.write 0x000#14 (.four 0x00000822#32)) :: [] ∧
    decode 0x00000822#32 = .ok (.setlen 8#8) := ⟨rfl, by decide⟩

theorem test_StepRuns_illegal_hyp :
    (State.reset.placeCommand 0x00000003#32).port = .bus (.write 0x000#14 (.four 0x00000003#32)) :: [] ∧
    decode 0x00000003#32 = .error (.unassignedOp 0x03#8) := ⟨rfl, by decide⟩

theorem test_EveryStepGoesOn_hyp : State.reset.port = [] := rfl

/-- P5's block with its input and the 8 symbols ENC makes of it in storage, a bad symbol reported, and a command
waiting. -/
def worked : State :=
  { octalBlock with
    mem := ⟨cells 0x100 octal ++ cells 0x1000 [0xA5, 0x5A] ++ cells 0x2000 [0x35, 0x31, 0x32, 0x35, 0x35, 0x30, 0x3D, 0x3D]⟩
    alphaLen := 8#9, inLen := 2#16, outLen := 8#16, errCode := .badSym, errInfo := 3#16, anyErr := true
    port := [.bus (.write 0x000#14 (.four 0x00000012#32))] }

theorem test_cfgInv_octal : cfgInv octalBlock.cfg octalBlock.activeAlpha :=
  ⟨fun _ => ⟨octal.map (BitVec.ofNat 8), by unfold validCodec; decide, by decide⟩, fun h => absurd h (by decide)⟩

theorem test_EveryStepKeepsTheInvariant_hyp : worked.Inv ∧ ∃ t, step worked = .next t := by
  refine ⟨⟨by decide, ?_, by decide, ?_, test_cfgInv_octal, by decide, by decide, by unfold outWritten; decide, by decide⟩, _, rfl⟩
  · intro a ha
    obtain ⟨c, hc, rfl⟩ := cellAt_listed _ _ ha
    have h : ∀ c ∈ worked.mem.cells, ((locate worked.params c.1).map (fun l => match l with | .byte _ _ => true | .reg _ => false)) = some true := by decide
    have := h c hc
    cases hl : locate worked.params c.1 with
    | none => simp [hl] at this
    | some l => cases l with
      | reg r => simp [hl] at this
      | byte b i => exact ⟨b, i, rfl⟩
  · intro v hv
    obtain ⟨c, hc, rfl⟩ := cellAt_listed _ _ hv
    have h : ∀ c ∈ worked.activeAlpha.cells, c.1 < 256 := by decide
    exact h c hc

theorem test_NoStepChangesTheParameters_hyp : ∃ t, step worked = .next t := ⟨_, rfl⟩

theorem test_PinReset_hyp : (facing .pinReset worked).port = .pinReset :: [] := rfl

theorem test_ResetDuringACommand_hyp :
    (facing (.resetDuringCmd 0x00000002#32) worked).port = .resetDuringCmd 0x00000002#32 :: [] := rfl

theorem test_StatusLayout_write_with_bit8 :
    (facing (.bus (.write 0x004#14 (.four 0x00000100#32))) worked).port = .bus (.write 0x004#14 (.four 0x00000100#32)) :: [] ∧
    (0x00000100#32).getLsbD 8 = true := ⟨rfl, rfl⟩
theorem test_StatusLayout_write_without_bit8 :
    (facing (.bus (.write 0x004#14 (.four 0xFFFFFEFF#32))) worked).port = .bus (.write 0x004#14 (.four 0xFFFFFEFF#32)) :: [] ∧
    (0xFFFFFEFF#32).getLsbD 8 = false := ⟨rfl, rfl⟩

theorem test_EveryCommandWrites_success :
    after (execWord 0x00000000#32 worked) (fun t => t.errCode == .ok) = true ∧ decode 0x00000000#32 ≠ .ok .srst := ⟨rfl, by decide⟩
theorem test_EveryCommandWrites_failure :
    after (execWord 0x00000003#32 worked) (fun t => t.errCode == .illegal && t.errCode != .badSym) = true := rfl

theorem test_CommandsReport_hyp : ∃ t, exec .nop worked = .next t := ⟨_, rfl⟩

theorem test_FailureIsAtomic_cfg : after (exec (.cfg 9 false false false false 0#8) worked) (fun t => t.errCode == .cfgN) = true := rfl
theorem test_FailureIsAtomic_dec :
    after (exec .dec (input [0x35, 0x31, 0x32, 0x38] octalBlock)) (fun t => t.errCode == .badSym && t.errInfo == 3#16) = true := rfl

theorem test_AnyErr_set : after (execWord 0x00000026#32 State.reset) (fun t => t.errCode == .illegal) = true := rfl
theorem test_AnyErr_cleared_by_status :
    worked.anyErr = true ∧
    after (step (facing (.bus (.write 0x004#14 (.four 0x00000100#32))) worked)) (fun t => !t.anyErr) = true := ⟨rfl, rfl⟩
theorem test_AnyErr_cleared_by_srst :
    worked.anyErr = true ∧
    after (step (facing (.bus (.write 0x000#14 (.four 0x000000FF#32))) worked)) (fun t => !t.anyErr) = true := ⟨rfl, rfl⟩
theorem test_AnyErr_cleared_by_pinReset :
    worked.anyErr = true ∧ after (step (facing .pinReset worked)) (fun t => !t.anyErr) = true := ⟨rfl, rfl⟩

-- each kind of state changes under a command that may change it
theorem test_CommandsWrite_codec :
    after (exec .preset32 worked) (fun t => t.cfg != worked.cfg && t.activeAlpha != worked.activeAlpha) = true := rfl
theorem test_CommandsWrite_srst :
    after (exec .srst { worked with time := 1#64 }) (fun t => t.alphaLen != worked.alphaLen && t.time != 1#64) = true := rfl
theorem test_CommandsWrite_inLen : after (exec .xfer worked) (fun t => t.inLen != worked.inLen) = true := rfl
theorem test_CommandsWrite_outLen :
    after (exec .enc (input [0xA5] octalBlock)) (fun t => t.outLen != octalBlock.outLen) = true := rfl
theorem test_CommandsWrite_ctr : after (exec .tstep { worked with time := 30#64 }) (fun t => t.ctr != worked.ctr) = true := rfl
theorem test_CommandsWrite_tval :
    after (exec .trunc (digested rfcDigest State.reset)) (fun t => t.tval != State.reset.tval && t.toff != State.reset.toff) = true := rfl
theorem test_CommandsWrite_codeLen : after (exec (.setlen 7#8) worked) (fun t => t.codeLen != worked.codeLen) = true := rfl
theorem test_CommandsWrite_storage :
    after (exec .ser worked) (fun t => t.mem.byteAt 0x227 != worked.mem.byteAt 0x227) = true := rfl

theorem test_OnlyCfg_command :
    after (step (facing (.bus (.write 0x000#14 (.four 0x00000002#32))) worked)) (fun t => t.cfg != worked.cfg) = true := rfl
theorem test_OnlyCfg_pinReset :
    after (step (facing .pinReset worked)) (fun t => t.activeAlpha != worked.activeAlpha) = true := rfl

theorem test_NothingReadsAFlag_flags :
    (∃ t, exec .enc octalBlock = .next t) ∧
    ∃ u, exec .enc { octalBlock with errCode := .ovf, anyErr := true, errInfo := 1#16 } = .next u :=
  ⟨⟨_, exec_nextOf _ _⟩, ⟨_, exec_nextOf _ _⟩⟩
theorem test_NothingReadsAFlag_valid :
    Instr.xfer ≠ .enc ∧ Instr.xfer ≠ .dec ∧ (∃ t, exec .xfer worked = .next t) ∧
    ∃ u, exec .xfer { worked with cfg := { worked.cfg with valid := false } } = .next u :=
  ⟨by decide, by decide, ⟨_, exec_nextOf _ _⟩, ⟨_, exec_nextOf _ _⟩⟩

-- another word with the OP of NOP; a SETLEN word with bit 16 set
theorem test_OnlyWord_hyps : (0x00000100#32).extractLsb' 0 8 = (0x00000000#32).extractLsb' 0 8 ∧ 0x00000100#32 ≠ 0x00000000#32 := by decide
theorem test_Setlen_illegal_hyps : (0x00010622#32).extractLsb' 0 8 = 0x22#8 ∧ (0x00010622#32).extractLsb' 16 16 ≠ 0#16 := by decide

-- the four letters at the edges of the fold: '`' and '{' stay, 'a' and 'z' fold
theorem test_Fold_edges : fold 0x60#8 = 0x60#8 ∧ fold 0x61#8 = 0x41#8 ∧ fold 0x7A#8 = 0x5A#8 ∧ fold 0x7B#8 = 0x7B#8 := by decide

/-! CFG: one state for each failing check, and one that passes; what ALPHA holds is `octal` or has a repeated symbol. -/

theorem test_CfgReports_width_0 : ¬ (1 ≤ 0 ∧ 0 ≤ 8) := by decide
theorem test_CfgReports_width_9 : ¬ (1 ≤ 9 ∧ 9 ≤ 8) := by decide
theorem test_CfgReports_length : (1 ≤ 3 ∧ 3 ≤ 8) ∧ (staged octal 7#9 State.reset).alphaLen.toNat ≠ 2 ^ 3 := by decide
theorem test_CfgReports_padded :
    (1 ≤ 3 ∧ 3 ≤ 8) ∧ (staged octal 8#9 State.reset).alphaLen.toNat = 2 ^ 3 ∧ ¬ ¬ (true = true ∧ false = false) := by decide
-- "0120" (4): symbols 0 and 3 are the same
theorem test_CfgReports_distinct :
    (1 ≤ 2 ∧ 2 ≤ 8) ∧ (staged [0x30, 0x31, 0x32, 0x30] 4#9 State.reset).alphaLen.toNat = 2 ^ 2 ∧ ¬ (false = true ∧ true = false) ∧
    ¬ ∀ v u, v < 2 ^ 2 → u < 2 ^ 2 → v ≠ u →
      key false (bufByte (staged [0x30, 0x31, 0x32, 0x30] 4#9 State.reset) 0 .alpha v) ≠
        key false (bufByte (staged [0x30, 0x31, 0x32, 0x30] 4#9 State.reset) 0 .alpha u) :=
  ⟨by decide, by decide, by decide, fun h => h 0 3 (by decide) (by decide) (by decide) rfl⟩

theorem test_octal_distinct (ci : Bool) : ∀ v, v < 2 ^ 3 → ∀ u, u < 2 ^ 3 → v ≠ u →
    key ci (bufByte (staged octal 8#9 State.reset) 0 .alpha v) ≠ key ci (bufByte (staged octal 8#9 State.reset) 0 .alpha u) := by
  cases ci <;> decide

theorem test_CfgReports_padFree :
    (1 ≤ 3 ∧ 3 ≤ 8) ∧ (staged octal 8#9 State.reset).alphaLen.toNat = 2 ^ 3 ∧ ¬ (false = true ∧ true = false) ∧
    (∀ v u, v < 2 ^ 3 → u < 2 ^ 3 → v ≠ u → key false (bufByte (staged octal 8#9 State.reset) 0 .alpha v) ≠
      key false (bufByte (staged octal 8#9 State.reset) 0 .alpha u)) ∧
    ¬ (true = true → ∀ v, v < 2 ^ 3 → key false 0x37#8 ≠ key false (bufByte (staged octal 8#9 State.reset) 0 .alpha v)) :=
  ⟨by decide, by decide, by decide, fun v u hv hu => test_octal_distinct false v hv u hu, fun h => h rfl 7 (by decide) rfl⟩

theorem test_CfgLatches_hyps :
    (1 ≤ 3 ∧ 3 ≤ 8) ∧ (staged octal 8#9 State.reset).alphaLen.toNat = 2 ^ 3 ∧ ¬ (true = true ∧ true = false) ∧
    (∀ v u, v < 2 ^ 3 → u < 2 ^ 3 → v ≠ u → key true (bufByte (staged octal 8#9 State.reset) 0 .alpha v) ≠
      key true (bufByte (staged octal 8#9 State.reset) 0 .alpha u)) ∧
    (true = true → ∀ v, v < 2 ^ 3 → key true 0x3D#8 ≠ key true (bufByte (staged octal 8#9 State.reset) 0 .alpha v)) :=
  ⟨by decide, by decide, by decide, fun v u hv hu => test_octal_distinct true v hv u hu, fun _ => by decide⟩
-- the narrowest symbol passes as well
theorem test_CfgLatches_width_1 :
    after (exec (.cfg 1 false false false false 0#8) (staged [0x30, 0x31] 2#9 State.reset)) (fun t => t.cfg.valid) = true := rfl

-- n = 8 with CI = 1: one input for each of the three codes, at the boundary of ALPHA_LEN
theorem test_CaseInsensitiveByteCodec_alen : (staged [] 255#9 State.reset).alphaLen.toNat ≠ 256 := by decide
theorem test_CaseInsensitiveByteCodec_pad :
    (staged [] 256#9 State.reset).alphaLen.toNat = 256 ∧ (true = true ∧ false = false) := by decide
theorem test_CaseInsensitiveByteCodec_dup :
    (staged [] 256#9 State.reset).alphaLen.toNat = 256 ∧ ¬ (true = true ∧ true = false) := by decide

/-! ENC -/

theorem test_cfgInv_preset : cfgInv preset.cfg preset.activeAlpha :=
  ⟨fun _ => ⟨base32.map (BitVec.ofNat 8), by unfold validCodec; decide, by decide⟩, fun h => absurd h (by decide)⟩
theorem test_cfgInv_reset : cfgInv State.reset.cfg State.reset.activeAlpha := ⟨fun h => absurd h (by decide), fun _ => rfl⟩
theorem test_cfgInv_five : cfgInv fiveBits.cfg fiveBits.activeAlpha :=
  ⟨fun _ => ⟨base32.map (BitVec.ofNat 8), by unfold validCodec; decide, by decide⟩, fun h => absurd h (by decide)⟩
theorem test_cfgInv_octalBare : cfgInv octalBare.cfg octalBare.activeAlpha :=
  ⟨fun _ => ⟨octal.map (BitVec.ofNat 8), by unfold validCodec; decide, by decide⟩, fun h => absurd h (by decide)⟩

theorem test_EncFails_noCfg : cfgInv State.reset.cfg State.reset.activeAlpha ∧ State.reset.cfg.valid = false := ⟨test_cfgInv_reset, rfl⟩
-- IN_CAP = 8, IN_LEN written 9 (95_test_vectors.md 2.4)
theorem test_EncFails_len :
    cfgInv preset.cfg preset.activeAlpha ∧ preset.cfg.valid = true ∧
    { sized ⟨8, by decide⟩ ⟨8, by decide⟩ false preset with inLen := 9#16 }.inLen.toNat > (sized ⟨8, by decide⟩ ⟨8, by decide⟩ false preset).inCap :=
  ⟨test_cfgInv_preset, rfl, by decide⟩
-- OUT_CAP = 8: 5 bytes fit, 6 do not
theorem test_EncFails_ovf :
    cfgInv preset.cfg preset.activeAlpha ∧ preset.cfg.valid = true ∧ 6 ≤ (sized ⟨8, by decide⟩ ⟨8, by decide⟩ false preset).inCap ∧
    encodedLength 5 6 true false > (sized ⟨8, by decide⟩ ⟨8, by decide⟩ false preset).outCap ∧ encodedLength 5 5 true false = 8 :=
  ⟨test_cfgInv_preset, rfl, by decide, by decide, by decide⟩

/-- The hypotheses of EncWritesTheSymbolString. -/
def encReady (s : State) : Prop :=
  cfgInv s.cfg s.activeAlpha ∧ s.cfg.valid = true ∧ s.inLen.toNat ≤ s.inCap ∧
  encodedLength s.cfg.n.toNat s.inLen.toNat s.cfg.rp s.cfg.pg ≤ s.outCap

-- a whole group, a partial group with RP = 1 and two pads: {A5 5A}
theorem test_EncWrites_padded :
    encReady (input [0xA5, 0x5A] octalBlock) ∧ 0 < (8 * 2) / 3 ∧ (8 * 2) % 3 ≠ 0 ∧ octalBlock.cfg.rp = true ∧
    bodyLength 3 2 true = 6 ∧ encodedLength 3 2 true true = 8 :=
  ⟨⟨test_cfgInv_octal, rfl, by decide, by decide⟩, by decide, by decide, rfl, by decide, by decide⟩
-- RP = 0, and an output that just fits
theorem test_EncWrites_bare :
    encReady (sized ⟨2, by decide⟩ ⟨5, by decide⟩ false (input [0xA5, 0x5A] octalBare)) ∧ encodedLength 3 2 false false = 5 :=
  ⟨⟨test_cfgInv_octalBare, rfl, by decide, by decide⟩, by decide⟩
-- no input at all
theorem test_EncWrites_empty : encReady (input [] preset) := ⟨test_cfgInv_preset, rfl, by decide, by decide⟩

theorem test_EncodedLength_hyps :
    cfgInv preset.cfg preset.activeAlpha ∧ preset.cfg = presetCfg ∧ (input (List.replicate 32 0) preset).inLen.toNat = 32 ∧
    after (exec .enc (input (List.replicate 32 0) preset)) (fun t => t.errCode == .ok) = true :=
  ⟨test_cfgInv_preset, rfl, rfl, by decide⟩

/-! DEC -/

theorem test_DecFails_noCfg : State.reset.cfg.valid = false := rfl
theorem test_DecFails_len :
    preset.cfg.valid = true ∧
    { sized ⟨8, by decide⟩ ⟨8, by decide⟩ false preset with inLen := 9#16 }.inLen.toNat > (sized ⟨8, by decide⟩ ⟨8, by decide⟩ false preset).inCap :=
  ⟨rfl, by decide⟩

/-- "5128" at n = 3, P5 (95_test_vectors.md). -/
def badString : State := input [0x35, 0x31, 0x32, 0x38] octalBlock

-- nothing is stripped, 5 1 2 denote values and '8' does not
theorem test_DecFails_badSym :
    badString.cfg.valid = true ∧ badString.inLen.toNat ≤ badString.inCap ∧ stripped badString 4 ∧ 3 < 4 ∧
    (∀ j, j < 3 → ∃ v, denotes badString v j) ∧ ¬ ∃ v, denotes badString v 3 := by
  refine ⟨rfl, by decide, ⟨by decide, fun h => absurd h (by decide), fun _ => ⟨fun i h h' => absurd h' (Nat.not_lt.mpr h), by decide⟩⟩, by decide, ?_, ?_⟩
  · intro j hj
    refine ⟨[5, 1, 2].getD j 0, ?_⟩
    have h : ∀ j, j < 3 → [5, 1, 2].getD j 0 < 2 ^ badString.cfg.n.toNat ∧
      bufByte badString 1 .inBuf j = badString.symbol ([5, 1, 2].getD j 0) := by decide
    exact ⟨(h j hj).1, by have := (h j hj).2; simpa [badString, input, octalBlock, codec, conf] using this⟩
  · rintro ⟨v, hv, h⟩
    have hall : ∀ v, v < 2 ^ badString.cfg.n.toNat → bufByte badString 1 .inBuf 3 ≠ badString.symbol v := by decide
    exact hall v hv (by simpa [badString, input, octalBlock, codec, conf] using h)

/-- "77=" at n = 3 with OUT_CAP = 1: one byte, which fits. -/
def padString : State := sized ⟨8, by decide⟩ ⟨1, by decide⟩ false (input [0x37, 0x37, 0x3D] octalBlock)

theorem test_padString_stripped : stripped padString 2 := by
  refine ⟨by decide, fun h => absurd h (by decide), fun _ => ⟨fun i h h' => ?_, by decide⟩⟩
  have h3 : i < 3 := h'
  have : i = 2 := by omega
  subst this; rfl

theorem test_padString_denotes : ∀ i, i < 2 → denotes padString 7 i := by
  intro i hi
  have h : ∀ i, i < 2 → 7 < 2 ^ padString.cfg.n.toNat ∧ bufByte padString 1 .inBuf i = padString.symbol 7 := by decide
  exact ⟨(h i hi).1, by have := (h i hi).2; simpa [padString, sized, input, octalBlock, codec, conf] using this⟩

-- six bits, a tail of at least one symbol: one byte, and OUT_CAP = 1
theorem test_DecWrites_hyps :
    cfgInv padString.cfg padString.activeAlpha ∧ padString.cfg.valid = true ∧ padString.inLen.toNat ≤ padString.inCap ∧
    stripped padString 2 ∧ (∀ i, i < 2 → denotes padString 7 i) ∧ decodedLength 3 2 ≤ padString.outCap ∧ decodedLength 3 2 = 1 :=
  ⟨test_cfgInv_octal, rfl, by decide, test_padString_stripped, test_padString_denotes, by decide, by decide⟩

/-- "777777" at n = 3 with OUT_CAP = 1: two bytes and two bits, which do not fit. -/
def longString : State := sized ⟨8, by decide⟩ ⟨1, by decide⟩ false (input (List.replicate 6 0x37) octalBare)

theorem test_DecFails_ovf :
    longString.cfg.valid = true ∧ longString.inLen.toNat ≤ longString.inCap ∧ stripped longString 6 ∧
    (∀ j, j < 6 → ∃ v, denotes longString v j) ∧ decodedLength 3 6 > longString.outCap := by
  refine ⟨rfl, by decide, ⟨by decide, fun _ => by decide, fun h => absurd h (by decide)⟩, ?_, by decide⟩
  intro j hj
  have h : ∀ j, j < 6 → 7 < 2 ^ longString.cfg.n.toNat ∧ bufByte longString 1 .inBuf j = longString.symbol 7 := by decide
  exact ⟨7, (h j hj).1, by have := (h j hj).2; simpa [longString, sized, input, octalBare, codec, conf] using this⟩

theorem test_DecodedLength_hyp : after (exec .dec padString) (fun t => t.errCode == .ok && t.outLen == 1#16) = true := rfl
theorem test_DecodedLength_width_8 :
    identityBlock.cfg.n = 8#4 ∧ after (exec .dec (input [0x01, 0x02] identityBlock)) (fun t => t.errCode == .ok) = true :=
  ⟨rfl, by decide⟩
theorem test_DecodedLength_width_1 :
    binaryBlock.cfg.n = 1#4 ∧ after (exec .dec (input [0x31] binaryBlock)) (fun t => t.errCode == .ok && t.outLen == 1#16) = true :=
  ⟨rfl, rfl⟩

theorem test_Xfer_fails : (sized ⟨4, by decide⟩ ⟨8, by decide⟩ false { preset with outLen := 5#16 }).outLen.toNat >
    (sized ⟨4, by decide⟩ ⟨8, by decide⟩ false { preset with outLen := 5#16 }).inCap := by decide
theorem test_Xfer_just_fits : (sized ⟨5, by decide⟩ ⟨8, by decide⟩ false { preset with outLen := 5#16 }).outLen.toNat ≤
    (sized ⟨5, by decide⟩ ⟨8, by decide⟩ false { preset with outLen := 5#16 }).inCap := by decide

/-! The round trip: the hypotheses, and one state for each case of R156. -/

/-- The hypotheses of EncXferDecRoundTrip on its first state. -/
def tripReady (s : State) : Prop :=
  cfgInv s.cfg s.activeAlpha ∧ ∃ s1 s2 s3, exec .enc s = .next s1 ∧ s1.errCode = .ok ∧ s1.outLen.toNat ≤ s.inCap ∧
    exec .xfer s1 = .next s2 ∧ exec .dec s2 = .next s3

theorem tripReady_of (s : State) (hc : cfgInv s.cfg s.activeAlpha)
    (h : (nextOf (exec .enc s)).errCode = .ok ∧ (nextOf (exec .enc s)).outLen.toNat ≤ s.inCap) : tripReady s :=
  ⟨hc, _, _, _, exec_nextOf _ _, h.1, h.2, exec_nextOf _ _, exec_nextOf _ _⟩

theorem test_RoundTrip_rightPadded : tripReady (input [0xFF] preset) ∧ preset.cfg.rp = true :=
  ⟨tripReady_of _ test_cfgInv_preset (by decide), rfl⟩
theorem test_RoundTrip_whole : tripReady (input [0xFF, 0xFF, 0xFF] octalBare) ∧ (8 * 3) % 3 = 0 :=
  ⟨tripReady_of _ test_cfgInv_octalBare (by decide), by decide⟩
-- n = 3, k = 1: e = 2
theorem test_RoundTrip_masked : tripReady (input [0xFF] octalBare) ∧ octalBare.cfg.rp = false ∧ (8 * 1) % 3 ≠ 0 ∧ (8 * 1) % 3 ≤ 8 - 3 :=
  ⟨tripReady_of _ test_cfgInv_octalBare (by decide), rfl, by decide, by decide⟩
-- n = 5, k = 3: e = 4 > 3
theorem test_RoundTrip_dropped : tripReady (input [0xFF, 0xFF, 0xFF] fiveBits) ∧ fiveBits.cfg.rp = false ∧ (8 * 3) % 5 > 8 - 5 :=
  ⟨tripReady_of _ test_cfgInv_five (by decide), rfl, by decide⟩

theorem test_Staging_hyps :
    (Instr.enc = .enc ∨ Instr.enc = .dec) ∧ 255 < 256 ∧ (∃ t, exec .enc worked = .next t) ∧
    ∃ u, exec .enc { worked with mem := worked.mem.writeByte (0x100 + 255) 0x41#8, alphaLen := 0#9 } = .next u :=
  ⟨.inl rfl, by decide, ⟨_, exec_nextOf _ _⟩, ⟨_, exec_nextOf _ _⟩⟩

/-! OTP -/

theorem test_ReadsBack_hyps :
    (∃ t, exec .fmt { State.reset with tval := 0x7FFFFFFF#31, codeLen := 10#8 } = .next t) ∧
    10 ≤ { State.reset with tval := 0x7FFFFFFF#31, codeLen := 10#8 }.codeLen.toNat := ⟨⟨_, exec_nextOf _ _⟩, by decide⟩

theorem test_OtpDepends_hyps :
    (∀ i, i < 20 → bufByte (digested rfcDigest State.reset) 0 .digest i = bufByte (digested rfcDigest { preset with ctr := 5#64 }) 0 .digest i) ∧
    (digested rfcDigest State.reset).codeLen = (digested rfcDigest { preset with ctr := 5#64 }).codeLen ∧
    (∃ t, exec .otp (digested rfcDigest State.reset) = .next t) ∧
    ∃ t, exec .otp (digested rfcDigest { preset with ctr := 5#64 }) = .next t :=
  ⟨by decide, rfl, ⟨_, exec_nextOf _ _⟩, ⟨_, exec_nextOf _ _⟩⟩

/-! The bus -/

/-- Capacities 8 and 4, stable storage, nothing else. -/
def smallBlock : State := sized ⟨8, by decide⟩ ⟨4, by decide⟩ true State.reset

-- both ends of every unmapped range
theorem test_Unmapped_ranges : ∀ off ∈ [0x038, 0x0FF, 0x214, 0x21F, 0x228, 0x2FF, 0x400, 0xFFF, 0x3000, 0x3FFF],
    unmapped State.reset.params off := by unfold unmapped; decide
theorem test_Unmapped_past_the_capacities : ∀ off ∈ [0x1008, 0x1FFF, 0x2004, 0x2FFF], unmapped smallBlock.params off := by
  unfold unmapped; decide
theorem test_UnmappedOffsets_hyps :
    (facing (.bus (.read 0x1008#14 .one)) smallBlock).port = .bus (.read 0x1008#14 .one) :: [] ∧
    unmapped (facing (.bus (.read 0x1008#14 .one)) smallBlock).params (Transaction.off (.read 0x1008#14 .one)) :=
  ⟨rfl, by unfold unmapped; decide⟩

-- BASE 0x40000000: the first and the last address of the block, and the two beside them
theorem test_BusAddress_edges :
    ({ State.reset.params with base := ⟨0x40000000, by decide⟩ } : Params).offsetOf 0x40000000 = some 0x0000#14 ∧
    ({ State.reset.params with base := ⟨0x40000000, by decide⟩ } : Params).offsetOf 0x40003FFF = some 0x3FFF#14 ∧
    ({ State.reset.params with base := ⟨0x40000000, by decide⟩ } : Params).offsetOf 0x3FFFFFFF = none ∧
    ({ State.reset.params with base := ⟨0x40000000, by decide⟩ } : Params).offsetOf 0x40004000 = none := by decide

theorem test_WrongSize_misaligned : Transaction.off (.read 0x005#14 .four) < 0x038 ∧ Transaction.off (.read 0x005#14 .four) % 4 ≠ 0 := by decide
theorem test_WrongSize_register : Transaction.off (.write 0x034#14 (.eight 0#64)) < 0x038 ∧ Transaction.size (.write 0x034#14 (.eight 0#64)) ≠ .four := by decide
theorem test_WrongSize_window :
    7 < Buffer.size smallBlock.params .inBuf ∧ Transaction.off (.write 0x1007#14 (.two 0#16)) = Buffer.base .inBuf + 7 ∧
    Transaction.size (.write 0x1007#14 (.two 0#16)) ≠ .one := by decide

theorem test_Okay_register :
    (facing (.bus (.read 0x034#14 .four)) smallBlock).port = .bus (.read 0x034#14 .four) :: [] ∧
    Transaction.off (.read 0x034#14 .four) = Reg.offset .toff ∧ Transaction.size (.read 0x034#14 .four) = .four := ⟨rfl, rfl, rfl⟩
theorem test_Okay_window :
    3 < Buffer.size smallBlock.params .outBuf ∧ Transaction.off (.read 0x2003#14 .one) = Buffer.base .outBuf + 3 ∧
    Transaction.size (.read 0x2003#14 .one) = .one := by decide

theorem test_RegisterReads_hyp :
    (facing (.bus (.read 0x004#14 .four)) worked).port = .bus (.read (BitVec.ofNat 14 (Reg.offset .status)) .four) :: [] := rfl

theorem test_WindowReads_written :
    0 < Buffer.size worked.params .inBuf ∧
    (facing (.bus (.read 0x1000#14 .one)) worked).port = .bus (.read (BitVec.ofNat 14 (Buffer.base .inBuf + 0)) .one) :: [] ∧
    worked.mem.byteAt (Buffer.base .inBuf + 0) = some 0xA5#8 := ⟨by decide, rfl, rfl⟩
theorem test_WindowReads_stable :
    7 < Buffer.size smallBlock.params .inBuf ∧
    (facing (.bus (.read 0x1007#14 .one)) smallBlock).port = .bus (.read (BitVec.ofNat 14 (Buffer.base .inBuf + 7)) .one) :: [] ∧
    smallBlock.mem.byteAt (Buffer.base .inBuf + 7) = none ∧ smallBlock.params.stableUninit = true := ⟨by decide, rfl, rfl, rfl⟩
theorem test_WindowReads_fresh :
    4095 < Buffer.size State.reset.params .outBuf ∧
    (facing (.bus (.read 0x2FFF#14 .one)) State.reset).port = .bus (.read (BitVec.ofNat 14 (Buffer.base .outBuf + 4095)) .one) :: [] ∧
    State.reset.mem.byteAt (Buffer.base .outBuf + 4095) = none ∧ State.reset.params.stableUninit = false := ⟨by decide, rfl, rfl, rfl⟩

theorem test_ReadsChangeNothing_twice :
    ∃ u t, { worked with port := [.bus (.read 0x1000#14 .one), .bus (.read 0x1000#14 .one)] }.port =
        .bus (.read 0x1000#14 .one) :: .bus (.read 0x1000#14 .one) :: [] ∧
      step { worked with port := [.bus (.read 0x1000#14 .one), .bus (.read 0x1000#14 .one)] } = .next u ∧ step u = .next t ∧
      worked.mem.byteAt (0x1000#14).toNat ≠ none := ⟨_, _, rfl, rfl, rfl, by decide⟩

theorem test_ReadsChangeNothing_stable :
    ∃ u t, step { smallBlock with port := [.bus (.read 0x1007#14 .one), .bus (.read 0x1007#14 .one)] } = .next u ∧
      step u = .next t ∧ smallBlock.params.stableUninit = true := ⟨_, _, rfl, rfl, rfl⟩
theorem test_ReadsChangeNothing_register :
    ∃ u t, step { State.reset with port := [.bus (.read 0x01C#14 .four), .bus (.read 0x01C#14 .four)] } = .next u ∧
      step u = .next t ∧ locate State.reset.params (0x01C#14).toNat = some (.reg .codeLen) := ⟨_, _, rfl, rfl, rfl⟩

theorem test_RegisterWrites_hyps : ∀ r ∈ [Reg.alphaLen, .inLen, .timeLo, .timeHi, .ctrLo, .ctrHi],
    (facing (.bus (hostWr r 0xFFFFFFFF#32)) worked).port = .bus (.write (BitVec.ofNat 14 r.offset) (.four 0xFFFFFFFF#32)) :: [] :=
  fun _ _ => rfl

theorem test_TwoHalfWrites_time :
    (State.reset.arrive (hostSetTime 0xFFFFFFFF00000000#64)).port = (hostSetTime 0xFFFFFFFF00000000#64).map PortEvent.bus ++ [] := rfl
theorem test_TwoHalfWrites_ctr :
    (State.reset.arrive (hostSetCtr 0x00000000FFFFFFFF#64)).port = (hostSetCtr 0x00000000FFFFFFFF#64).map PortEvent.bus ++ [] := rfl

-- the last byte of each writable window
theorem test_WindowWrites_hyps : ∀ x ∈ [(Buffer.alpha, 255), (Buffer.digest, 19), (Buffer.inBuf, 7)],
    x.1 ∈ [Buffer.alpha, .digest, .inBuf] ∧ x.2 < Buffer.size smallBlock.params x.1 ∧
    (facing (.bus (hostWrb x.1 x.2 0x41#8)) smallBlock).port = .bus (.write (BitVec.ofNat 14 (x.1.base + x.2)) (.one 0x41#8)) :: [] := by
  decide

theorem test_ReadOnly_registers : ∀ r ∈ [Reg.errInfo, .cfg, .outLen, .codeLen, .tval, .toff],
    (facing (.bus (hostWr r 0xFFFFFFFF#32)) worked).port = .bus (.write (BitVec.ofNat 14 r.offset) (.four 0xFFFFFFFF#32)) :: [] :=
  fun _ _ => rfl
theorem test_ReadOnly_status :
    (0xFFFFFEFF#32).getLsbD 8 = false ∧
    (facing (.bus (hostWr .status 0xFFFFFEFF#32)) worked).port = .bus (.write (BitVec.ofNat 14 (Reg.offset .status)) (.four 0xFFFFFEFF#32)) :: [] :=
  ⟨rfl, rfl⟩
theorem test_ReadOnly_windows : ∀ x ∈ [(Buffer.msg, 7), (Buffer.codeBuf, 255), (Buffer.outBuf, 3)],
    x.1 ∈ [Buffer.msg, .codeBuf, .outBuf] ∧ x.2 < Buffer.size smallBlock.params x.1 ∧
    (facing (.bus (hostWrb x.1 x.2 0x41#8)) smallBlock).port = .bus (.write (BitVec.ofNat 14 (x.1.base + x.2)) (.one 0x41#8)) :: [] := by
  decide

theorem test_HmacStep_hyp : (facing .hmacStep worked).port = .hmacStep :: [] := rfl

end Sys2Proof.Tests
end

section
/-! PROOFS. The scope family (00_scope.md): what no step touches, and where the block lies in the bus's address
space. -/

namespace Sys2Proof.Machine

/-! ### What a step leaves alone outside the block -/

/-- The frame of a command: it changes the block (R20), advances the tick, and touches nothing else of the state. -/
theorem exec_changes_block_only (i : Instr) (s : State) :
    ∃ b, exec i s = .next { s with toBlock := b, tick := s.tick + 1 } := by
  cases i with
  | cfg n ci rp pg pe pad =>
    rcases execCfg_cases n ci rp pg pe pad s with ⟨_, _, h⟩ | ⟨_, h⟩ <;> exact ⟨_, h⟩
  | enc => rcases execEnc_cases s with ⟨_, h⟩ | ⟨_, _, h⟩ | ⟨_, _, _, h⟩ | ⟨_, _, _, h⟩ <;> exact ⟨_, h⟩
  | dec =>
    rcases execDec_cases s with ⟨_, h⟩ | ⟨_, _, h⟩ | ⟨_, _, _, _, h⟩ | ⟨_, _, _, _, _, h⟩ | ⟨_, _, _, _, _, h⟩ <;>
      exact ⟨_, h⟩
  | xfer => rcases execXfer_cases s with ⟨_, h⟩ | ⟨_, h⟩ <;> exact ⟨_, h⟩
  | _ => exact ⟨_, rfl⟩

/-- The frame of a command word, legal or not (R78, R106). -/
theorem execWord_changes_block_only (w : Word) (s : State) :
    ∃ b, execWord w s = .next { s with toBlock := b, tick := s.tick + 1 } := by
  rcases execWord_cases w s with ⟨i, _, h⟩ | ⟨_, _, h⟩
  · exact h ▸ exec_changes_block_only i s
  · exact ⟨_, h⟩

@[simp] theorem State.regWrite_params (s : State) (v : Word) (r : Reg) : (s.regWrite v r).params = s.params := by
  rcases s.regWrite_cases v r with h | h | h | h | ⟨_, h⟩ | ⟨_, h⟩ <;> rw [h]

@[simp] theorem State.serveRead_params (s : State) (off : BitVec 14) (size : AccessSize) :
    (s.serveRead off size).params = s.params := by
  rcases s.serveRead_cases off size with h | ⟨_, _, _, h⟩ | ⟨_, _, _, _, h⟩ <;> simp [h]

@[simp] theorem State.serveHmac_params (s : State) : s.serveHmac.params = s.params := rfl

theorem State.serveWrite_keeps_params (s : State) (off : BitVec 14) (data : WriteData) :
    ∃ t, s.serveWrite off data = .next t ∧ t.params = s.params := by
  rcases s.serveWrite_cases off data with h | ⟨w, _, _, h⟩ | ⟨_, _, _, _, _, h⟩ | ⟨_, _, _, _, _, _, h⟩ |
    ⟨_, _, _, _, _, _, h⟩
  · exact ⟨_, h, rfl⟩
  · obtain ⟨b, hb⟩ := execWord_changes_block_only w s
    exact ⟨_, h.trans (congrArg acknowledge hb), rfl⟩
  · exact ⟨_, h, by simp⟩
  · exact ⟨_, h, rfl⟩
  · exact ⟨_, h, rfl⟩

/-- A reset during a CMD write ends in a power-on state of the block, before the command or after it (R262). -/
theorem State.serveResetDuringCmd_keeps_params (s : State) (w : Word) :
    ∃ t, s.serveResetDuringCmd w = .next t ∧ t.params = s.params := by
  obtain ⟨b, hb⟩ := execWord_changes_block_only w s
  unfold State.serveResetDuringCmd
  rw [hb]
  split <;> exact ⟨_, rfl, rfl⟩

/-- No event at the port stops the block, and none changes its parameters. -/
theorem State.serve_keeps_params (s : State) (e : PortEvent) : ∃ t, s.serve e = .next t ∧ t.params = s.params := by
  cases e with
  | bus tr =>
    cases tr with
    | read off size => exact ⟨_, rfl, s.serveRead_params off size⟩
    | write off data => exact s.serveWrite_keeps_params off data
  | pinReset => exact ⟨_, rfl, s.powerOn_params⟩
  | resetDuringCmd w => exact s.serveResetDuringCmd_keeps_params w
  | hmacStep => exact ⟨_, rfl, s.serveHmac_params⟩

theorem step_keeps_params (s : State) : ∃ t, step s = .next t ∧ t.params = s.params := by
  unfold step State.serveNext
  split
  · exact ⟨s, rfl, rfl⟩
  · next e rest _ => exact State.serve_keeps_params { s with port := rest } e

/-! ### Bus addresses -/

/-- BASE is 16 KiB aligned, so an offset is the low 14 bits of its address. -/
theorem Params.address_mod (p : Params) (off : BitVec 14) : p.address off % 2 ^ 14 = off.toNat := by
  have haligned := p.base.2
  unfold Params.address
  omega

/-- An address stands for an offset exactly if it is that offset's address. -/
theorem Params.offsetOf_eq_some_iff (p : Params) (a : Nat) (off : BitVec 14) :
    p.offsetOf a = some off ↔ a = p.address off := by
  have hoff := off.isLt
  unfold Params.offsetOf Params.address
  split
  · next hin =>
    rw [Option.some.injEq, ← BitVec.toNat_inj, BitVec.toNat_ofNat]
    omega
  · next hout => simp only [reduceCtorEq, false_iff]; omega

/-- An address stands for no offset exactly if it lies outside the block's 16 KiB. -/
theorem Params.offsetOf_eq_none_iff (p : Params) (a : Nat) :
    p.offsetOf a = none ↔ a < p.base.val ∨ p.base.val + 2 ^ 14 ≤ a := by
  rw [Params.offsetOf, ite_eq_right_iff]
  simp only [reduceCtorEq, imp_false]
  omega

/-- Settles O11: an event changes the block, the port, the response or the model's counters, never the parameters. -/
theorem noStepChangesTheParameters : Obligations.NoStepChangesTheParameters := by
  intro s t h
  obtain ⟨t', ht', hparams⟩ := step_keeps_params s
  obtain rfl : t' = t := by simpa [ht'] using h
  exact hparams

/-- Settles O59, from what an address and an offset are to each other and BASE's alignment. -/
theorem busAddressesAreBasePlusOffset : Obligations.BusAddressesAreBasePlusOffset := by
  intro p a size
  refine ⟨p.offsetOf_eq_some_iff a, fun off => ⟨(p.offsetOf_eq_some_iff _ off).2 rfl, p.address_mod off⟩, ?_⟩
  rw [hostReadAt, Option.map_eq_none_iff]
  exact p.offsetOf_eq_none_iff a

end Sys2Proof.Machine
end

section
/-! PROOFS. The state family (10_state.md): what every command and every event can do to the state, said once; the
invariant of the block, the frame of the commands, and what they depend on. -/

namespace Sys2Proof.Machine
open Sys2Proof.Spec

/-! ### All a command can do -/

/-- `Effect s i u e info`: the command `i` on `s` leaves `u`, and then reports the code `e` with `info`. The failures
of ENC, DEC and XFER, which leave the state alone, are one constructor; so are the successes of ENC and DEC. -/
inductive Effect (s : State) : Instr → State → ErrCode → BitVec 16 → Prop
  | failed {i : Instr} {e : ErrCode} {info : BitVec 16} (hi : i = .enc ∨ i = .dec ∨ i = .xfer)
      (hinfo : e ≠ .badSym → info = 0#16) : Effect s i s e info
  | nop : Effect s .nop s .ok 0#16
  | cfgFailed {n : Nat} {ci rp pg pe : Bool} {pad : Byte} (e : ErrCode) :
      Effect s (.cfg n ci rp pg pe pad) s.clearCfg e 0#16
  | cfgLatched {n : Nat} {ci rp pg pe : Bool} {pad : Byte}
      (hcheck : cfgCheck n ci pg pe pad s.alphaLen.toNat (s.readBuf 0 .alpha (2 ^ n)) = none) :
      Effect s (.cfg n ci rp pg pe pad) (s.latchCodec
        { n := BitVec.ofNat 4 n, ci := ci, rp := rp, pg := pg, pe := pe, pad := pad, valid := true }
        (s.readBuf 0 .alpha (2 ^ n))) .ok 0#16
  | preset32 : Effect s .preset32 (s.latchCodec presetCfg base32Alphabet) .ok 0#16
  | output {i : Instr} {bs : List Byte} (hi : i = .enc ∨ i = .dec) (hfit : bs.length ≤ s.outCap) :
      Effect s i (s.putOutput bs) .ok 0#16
  | input {bs : List Byte} (hfit : bs.length ≤ s.inCap) : Effect s .xfer (s.putInput bs) .ok 0#16
  | tstep : Effect s .tstep { s with ctr := timeStep s.time } .ok 0#16
  | ser : Effect s .ser (s.writeBuf .msg (counterBytes s.ctr)) .ok 0#16
  | setlen {imm : Byte} : Effect s (.setlen imm) { s with codeLen := clampLen imm } .ok 0#16
  | trunc : Effect s .trunc s.truncate .ok 0#16
  | fmt : Effect s .fmt s.format .ok 0#16
  | otp : Effect s .otp s.truncate.format .ok 0#16
  | srst : Effect s .srst s.softReset .ok 0#16

/-- Every command has one of these effects and ends in its report (R233). -/
theorem exec_effect (i : Instr) (s : State) :
    ∃ u e info, Effect s i u e info ∧ exec i s = .next (u.report e info) := by
  cases i with
  | nop => exact ⟨_, _, _, .nop, rfl⟩
  | cfg n ci rp pg pe pad =>
    rcases execCfg_cases n ci rp pg pe pad s with ⟨e, _, h⟩ | ⟨hcheck, h⟩
    · exact ⟨_, _, _, .cfgFailed e, h⟩
    · exact ⟨_, _, _, .cfgLatched hcheck, h⟩
  | preset32 => exact ⟨_, _, _, .preset32, rfl⟩
  | enc =>
    rcases execEnc_cases s with ⟨_, h⟩ | ⟨_, _, h⟩ | ⟨_, _, _, h⟩ | ⟨_, _, hfit, h⟩
    · exact ⟨_, _, _, .failed (.inl rfl) (fun _ => rfl), h⟩
    · exact ⟨_, _, _, .failed (.inl rfl) (fun _ => rfl), h⟩
    · exact ⟨_, _, _, .failed (.inl rfl) (fun _ => rfl), h⟩
    · exact ⟨_, _, _, .output (.inl rfl) hfit, h⟩
  | dec =>
    rcases execDec_cases s with ⟨_, h⟩ | ⟨_, _, h⟩ | ⟨_, _, _, _, h⟩ | ⟨_, _, _, _, _, h⟩ | ⟨_, _, _, _, hfit, h⟩
    · exact ⟨_, _, _, .failed (.inr (.inl rfl)) (fun _ => rfl), h⟩
    · exact ⟨_, _, _, .failed (.inr (.inl rfl)) (fun _ => rfl), h⟩
    · exact ⟨_, _, _, .failed (.inr (.inl rfl)) (fun hne => absurd rfl hne), h⟩
    · exact ⟨_, _, _, .failed (.inr (.inl rfl)) (fun _ => rfl), h⟩
    · exact ⟨_, _, _, .output (.inr rfl) (by rwa [decBytes_length]), h⟩
  | xfer =>
    rcases execXfer_cases s with ⟨_, h⟩ | ⟨hfit, h⟩
    · exact ⟨_, _, _, .failed (.inr (.inr rfl)) (fun _ => rfl), h⟩
    · exact ⟨_, _, _, .input (by rwa [State.readBuf_length]), h⟩
  | tstep => exact ⟨_, _, _, .tstep, rfl⟩
  | ser => exact ⟨_, _, _, .ser, rfl⟩
  | setlen imm => exact ⟨_, _, _, .setlen, rfl⟩
  | trunc => exact ⟨_, _, _, .trunc, rfl⟩
  | fmt => exact ⟨_, _, _, .fmt, rfl⟩
  | otp => exact ⟨_, _, _, .otp, rfl⟩
  | srst => exact ⟨_, _, _, .srst, rfl⟩

/-- `exec_effect` for the state a command is known to end in. -/
theorem effect_of_exec {i : Instr} {s t : State} (h : exec i s = .next t) :
    ∃ u e info, Effect s i u e info ∧ t = u.report e info := by
  obtain ⟨u, e, info, heff, hu⟩ := exec_effect i s
  exact ⟨u, e, info, heff, by simpa [h] using hu⟩

/-- ERRINFO is 0 unless the error is E_BADSYM (R26). -/
theorem Effect.errInfo_eq_zero {s u : State} {i : Instr} {e : ErrCode} {info : BitVec 16} (h : Effect s i u e info)
    (he : e ≠ .badSym) : info = 0#16 := by
  cases h with
  | failed _ hinfo => exact hinfo he
  | _ => rfl

/-- What a command does to storage: nothing, or it writes bytes from the start of a buffer that is its own (R49), all
of them inside it. -/
theorem Effect.mem_cases {s u : State} {i : Instr} {e : ErrCode} {info : BitVec 16} (h : Effect s i u e info) :
    u.mem = s.mem ∨
    ∃ b bs, u.mem = s.mem.writeBytes (Buffer.base b) bs ∧ bs.length ≤ b.size s.params ∧ writesBuffer i b := by
  have hcode : s.codeLen.toNat ≤ 256 := Nat.le_of_lt s.codeLen.isLt
  cases h with
  | output hi hfit => exact .inr ⟨.outBuf, _, rfl, hfit, by simp [writesBuffer, hi]⟩
  | input hfit => exact .inr ⟨.inBuf, _, rfl, hfit, by simp [writesBuffer]⟩
  | ser => exact .inr ⟨.msg, _, rfl, by simp [Buffer.size], by simp [writesBuffer]⟩
  | fmt => exact .inr ⟨.codeBuf, _, rfl, by simpa [Buffer.size] using hcode, by simp [writesBuffer]⟩
  | otp => exact .inr ⟨.codeBuf, _, rfl, by simpa [Buffer.size] using hcode, by simp [writesBuffer]⟩
  | _ => exact .inl rfl

/-! ### All an event can do -/

/-- All an event at the port can do: leave the block alone, run a command word, write a register, write a byte of a
writable window, or reset the block. -/
theorem State.serve_cases {s t : State} {ev : PortEvent} (h : s.serve ev = .next t) :
    (t.toBlock = s.toBlock ∧ t.params = s.params) ∨
    (∃ w u, ev = .bus (.write 0x000#14 (.four w)) ∧ execWord w s = .next u ∧ t = u.respond okayWrite) ∨
    (∃ r v, t = (s.regWrite v r).respond okayWrite) ∨
    (∃ b i v, i < Buffer.size s.params b ∧ t = (s.writeBufByte b i v).respond okayWrite) ∨
    ((ev = .pinReset ∨ ∃ w, ev = .resetDuringCmd w) ∧ t.toBlock = Block.reset) := by
  cases ev with
  | bus tr =>
    cases tr with
    | read off size =>
      obtain rfl : s.serveRead off size = t := Host.Outcome.next.inj h
      rcases s.serveRead_cases off size with hr | ⟨_, _, _, hr⟩ | ⟨_, _, _, _, hr⟩ <;> exact .inl (by simp [hr])
    | write off data =>
      replace h : s.serveWrite off data = .next t := h
      rcases s.serveWrite_cases off data with hw | ⟨w, hoff, rfl, hw⟩ | ⟨r, v, _, _, _, hw⟩ |
        ⟨b, i, v, hloc, _, _, hw⟩ | ⟨_, _, _, _, _, _, hw⟩ <;> rw [hw] at h
      · obtain rfl := Host.Outcome.next.inj h
        exact .inl ⟨rfl, rfl⟩
      · obtain ⟨u, hu⟩ := execWord_next w s
        rw [hu] at h
        obtain rfl : off = 0x000#14 := BitVec.eq_of_toNat_eq hoff
        exact .inr (.inl ⟨w, u, rfl, hu, (Host.Outcome.next.inj h).symm⟩)
      · exact .inr (.inr (.inl ⟨r, v, (Host.Outcome.next.inj h).symm⟩))
      · exact .inr (.inr (.inr (.inl ⟨b, i, v, (locate_eq_byte hloc).2, (Host.Outcome.next.inj h).symm⟩)))
      · obtain rfl := Host.Outcome.next.inj h
        exact .inl ⟨rfl, rfl⟩
  | pinReset =>
    obtain rfl : s.powerOn = t := Host.Outcome.next.inj h
    exact .inr (.inr (.inr (.inr ⟨.inl rfl, rfl⟩)))
  | resetDuringCmd w =>
    refine .inr (.inr (.inr (.inr ⟨.inr ⟨w, rfl⟩, ?_⟩)))
    obtain ⟨u, hu⟩ := execWord_next w s
    replace h : s.serveResetDuringCmd w = .next t := h
    unfold State.serveResetDuringCmd at h
    rw [hu] at h
    split at h <;> exact Host.Outcome.next.inj h ▸ rfl
  | hmacStep =>
    obtain rfl : s.serveHmac = t := Host.Outcome.next.inj h
    exact .inl ⟨rfl, rfl⟩

/-- With an event at the port a step serves it, on the state whose port has the event taken off (R74). -/
theorem step_of_port {s : State} {ev : PortEvent} {rest : List PortEvent} (h : s.port = ev :: rest) :
    step s = State.serve { s with port := rest } ev := by
  simp only [step, State.serveNext, h]

/-- With nothing at the port a step holds the state (R247). -/
theorem step_of_port_nil {s : State} (h : s.port = []) : step s = .next s := by
  simp only [step, State.serveNext, h]

/-! ### What keeps the parts of the invariant -/

/-- Bytes written inside a window keep storage inside the map. -/
theorem memMapped_writeBytes {p : Params} {m : Memory} (hm : memMapped p m) (b : Buffer) (i : Nat) (bs : List Byte)
    (hfit : i + bs.length ≤ b.size p) : memMapped p (m.writeBytes (b.base + i) bs) := by
  intro a ha
  rw [Memory.byteAt_writeBytes] at ha
  split at ha
  · next hin =>
    have hloc := locate_byte p b (i := a - b.base) (by omega)
    rw [show b.base + (a - b.base) = a by omega] at hloc
    exact ⟨b, _, hloc⟩
  · exact hm a ha

/-- At most 256 entries written from the first one on keep the hidden table within its bounds (R29). -/
theorem tableBounded_writeBytes {m : Memory} (hm : tableBounded m) (syms : List Byte) (hlen : syms.length ≤ 256) :
    tableBounded (m.writeBytes 0 syms) := by
  intro v hv
  rw [Memory.byteAt_writeBytes] at hv
  split at hv
  · omega
  · exact hm v hv

/-- A byte of OUT_BUF once written stays written, whatever else is. -/
theorem outWritten_writeBytes {m : Memory} {len : Nat} (hm : outWritten m len) (a : Nat) (bs : List Byte) :
    outWritten (m.writeBytes a bs) len :=
  fun i hi => m.byteAt_writeBytes_ne_none a bs (hm i hi)

/-- What is written from the start of OUT_BUF on is written. -/
theorem outWritten_of_writeBytes (m : Memory) (bs : List Byte) :
    outWritten (m.writeBytes Buffer.outBuf.base bs) bs.length := by
  intro i hi
  rw [Memory.byteAt_writeBytes_inside _ _ _ _ hi]
  simpa using hi

/-- A cleared CFG needs no table (R28). -/
theorem cfgInv_cleared (m : Memory) : cfgInv CfgReg.cleared m := ⟨fun h => absurd h (by decide), fun _ => rfl⟩

/-- A valid configuration and its symbols, latched together, meet the CFG invariant. -/
theorem cfgInv_latch {c : CfgReg} {syms : List Byte} (hc : c.valid = true) (hvalid : validCodec c syms) (m : Memory) :
    cfgInv c (m.writeBytes 0 syms) := by
  refine ⟨fun _ => ⟨syms, hvalid, fun v hv => ?_⟩, fun h => by simp [hc] at h⟩
  obtain ⟨_, _, hlen, _⟩ := hvalid
  simpa using m.byteAt_writeBytes_inside syms 0 v (hlen ▸ hv)

/-- What passes the checks of R134 is a valid configuration. -/
theorem validCodec_of_cfgCheck {n : Nat} {ci rp pg pe : Bool} {pad : Byte} {alphaLen : Nat} {syms : List Byte}
    (hcheck : cfgCheck n ci pg pe pad alphaLen syms = none) (hlen : syms.length = 2 ^ n) :
    validCodec { n := BitVec.ofNat 4 n, ci := ci, rp := rp, pg := pg, pe := pe, pad := pad, valid := true } syms := by
  obtain ⟨h1, h8, _, hpg, hnodup, hpad⟩ := (cfgCheck_eq_none n ci pg pe pad alphaLen syms).1 hcheck
  have hn : (BitVec.ofNat 4 n).toNat = n := by rw [BitVec.toNat_ofNat]; omega
  exact ⟨hn.symm ▸ h1, hn.symm ▸ h8, hn.symm ▸ hlen, hnodup, hpg, hpad⟩

/-- PRESET32's configuration is a valid one (R135). -/
theorem validCodec_preset : validCodec presetCfg base32Alphabet := by
  unfold validCodec
  decide

theorem clampLen_ge_six (imm : Byte) : 6 ≤ (clampLen imm).toNat := by
  unfold clampLen
  split
  · decide
  · omega

/-! ### What keeps the invariant -/

/-- The invariant speaks of the block and the parameters alone. -/
theorem State.Inv.of_toBlock_eq {s t : State} (hs : s.Inv) (hblock : t.toBlock = s.toBlock)
    (hparams : t.params = s.params) : t.Inv := by
  cases s; cases t; cases hblock; cases hparams
  exact { hs with }

/-- A block right after reset meets the invariant, with any parameters. -/
theorem State.Inv.of_toBlock_reset {t : State} (hblock : t.toBlock = Block.reset) : t.Inv := by
  cases t; cases hblock
  exact {
    mem_wf := State.reset_mem_wf
    mem_mapped := fun _ ha => absurd rfl ha
    table_wf := State.reset_activeAlpha_wf
    table_bounded := fun _ hv => absurd rfl hv
    cfg_inv := cfgInv_cleared _
    code_len := Nat.le_refl 6
    out_len := Nat.zero_le _
    out_written := fun _ hi => absurd hi (Nat.not_lt_zero _)
    err_info := fun _ => rfl }

/-- The report of a command keeps the invariant if it has no information but E_BADSYM's. -/
theorem State.Inv.report {s : State} (hs : s.Inv) {e : ErrCode} {info : BitVec 16} (hinfo : e ≠ .badSym → info = 0#16) :
    (s.report e info).Inv :=
  { hs with err_info := hinfo }

/-- Bytes written inside a window keep the invariant. -/
theorem State.Inv.writeBytes {s : State} (hs : s.Inv) (b : Buffer) (i : Nat) (bs : List Byte)
    (hfit : i + bs.length ≤ b.size s.params) : State.Inv { s with mem := s.mem.writeBytes (b.base + i) bs } :=
  { hs with
    mem_wf := Memory.writeBytes_wf bs _ _ hs.mem_wf
    mem_mapped := memMapped_writeBytes hs.mem_mapped b i bs hfit
    out_written := outWritten_writeBytes hs.out_written _ bs }

theorem State.Inv.writeBuf {s : State} (hs : s.Inv) (b : Buffer) (bs : List Byte) (hfit : bs.length ≤ b.size s.params) :
    (s.writeBuf b bs).Inv :=
  hs.writeBytes b 0 bs (by omega)

theorem State.Inv.writeBufByte {s : State} (hs : s.Inv) (b : Buffer) {i : Nat} (v : Byte) (hi : i < b.size s.params) :
    (s.writeBufByte b i v).Inv :=
  hs.writeBytes b i [v] hi

theorem State.Inv.putOutput {s : State} (hs : s.Inv) {bs : List Byte} (hfit : bs.length ≤ s.outCap) :
    (s.putOutput bs).Inv := by
  have hcap : s.outCap ≤ 4096 := s.params.outCap.2.2
  have hlen : (s.putOutput bs).outLen.toNat = bs.length := by
    rw [State.putOutput_outLen, BitVec.toNat_ofNat]
    omega
  exact { hs.writeBuf .outBuf bs hfit with
    out_len := hlen.symm ▸ hfit
    out_written := hlen.symm ▸ outWritten_of_writeBytes s.mem bs }

theorem State.Inv.putInput {s : State} (hs : s.Inv) {bs : List Byte} (hfit : bs.length ≤ s.inCap) :
    (s.putInput bs).Inv :=
  { hs.writeBuf .inBuf bs hfit with }

theorem State.Inv.clearCfg {s : State} (hs : s.Inv) : s.clearCfg.Inv :=
  { hs with cfg_inv := cfgInv_cleared _ }

theorem State.Inv.latchCodec {s : State} (hs : s.Inv) {c : CfgReg} {syms : List Byte} (hc : c.valid = true)
    (hvalid : validCodec c syms) : (s.latchCodec c syms).Inv := by
  have hbound : syms.length ≤ 256 := by
    obtain ⟨_, h8, hlen, _⟩ := hvalid
    exact hlen ▸ Nat.pow_le_pow_right (by omega) h8
  exact { hs with
    table_wf := Memory.writeBytes_wf syms _ _ hs.table_wf
    table_bounded := tableBounded_writeBytes hs.table_bounded syms hbound
    cfg_inv := cfgInv_latch hc hvalid _ }

theorem State.Inv.truncate {s : State} (hs : s.Inv) : s.truncate.Inv := { hs with }

theorem State.Inv.format {s : State} (hs : s.Inv) : s.format.Inv :=
  hs.writeBuf .codeBuf _ (by simpa [Buffer.size] using Nat.le_of_lt s.codeLen.isLt)

theorem State.Inv.softReset {s : State} (hs : s.Inv) : s.softReset.Inv :=
  { hs with
    cfg_inv := cfgInv_cleared _
    code_len := Nat.le_refl 6
    out_len := Nat.zero_le _
    out_written := fun _ hi => absurd hi (Nat.not_lt_zero _) }

/-- No register a host can write is one the invariant speaks of. -/
theorem State.Inv.regWrite {s : State} (hs : s.Inv) (v : Word) (r : Reg) : (s.regWrite v r).Inv := by
  rcases s.regWrite_cases v r with h | h | h | h | ⟨_, h⟩ | ⟨_, h⟩ <;> rw [h] <;> exact { hs with }

/-- The effect of every command keeps the invariant. -/
theorem Effect.keeps_inv {s u : State} {i : Instr} {e : ErrCode} {info : BitVec 16} (h : Effect s i u e info)
    (hs : s.Inv) : u.Inv := by
  cases h with
  | failed => exact hs
  | nop => exact hs
  | cfgFailed => exact hs.clearCfg
  | cfgLatched hcheck => exact hs.latchCodec rfl (validCodec_of_cfgCheck hcheck (s.readBuf_length 0 .alpha _))
  | preset32 => exact hs.latchCodec rfl validCodec_preset
  | output _ hfit => exact hs.putOutput hfit
  | input hfit => exact hs.putInput hfit
  | tstep => exact { hs with }
  | ser => exact hs.writeBuf .msg _ (by simp [Buffer.size])
  | setlen => exact { hs with code_len := clampLen_ge_six _ }
  | trunc => exact hs.truncate
  | fmt => exact hs.format
  | otp => exact hs.truncate.format
  | srst => exact hs.softReset

/-- Every command word, legal or not, keeps the invariant. -/
theorem execWord_keeps_inv {w : Word} {s t : State} (hs : s.Inv) (h : execWord w s = .next t) : t.Inv := by
  rcases execWord_cases w s with ⟨i, _, hw⟩ | ⟨_, _, hw⟩
  · obtain ⟨u, e, info, heff, rfl⟩ := effect_of_exec (hw.symm.trans h)
    exact (heff.keeps_inv hs).report heff.errInfo_eq_zero
  · obtain rfl := Host.Outcome.next.inj (hw.symm.trans h)
    exact hs.report (fun _ => rfl)

/-- Every event at the port keeps the invariant. -/
theorem State.serve_keeps_inv {s t : State} {ev : PortEvent} (hs : s.Inv) (h : s.serve ev = .next t) : t.Inv := by
  rcases State.serve_cases h with ⟨hblock, hparams⟩ | ⟨w, u, _, hw, rfl⟩ | ⟨r, v, rfl⟩ | ⟨b, i, v, hi, rfl⟩ | ⟨_, hblock⟩
  · exact hs.of_toBlock_eq hblock hparams
  · exact (execWord_keeps_inv hs hw).of_toBlock_eq rfl rfl
  · exact (hs.regWrite v r).of_toBlock_eq rfl rfl
  · exact (hs.writeBufByte b v hi).of_toBlock_eq rfl rfl
  · exact .of_toBlock_reset hblock

/-- Settles O10: a step holds the state or serves one event, and both keep the invariant. -/
theorem everyStepKeepsTheInvariant : Obligations.EveryStepKeepsTheInvariant := by
  intro s t hs h
  cases hport : s.port with
  | nil =>
    obtain rfl := Host.Outcome.next.inj ((step_of_port_nil hport).symm.trans h)
    exact hs
  | cons ev rest =>
    have hs' : State.Inv { s with port := rest } := hs.of_toBlock_eq rfl rfl
    exact State.serve_keeps_inv hs' ((step_of_port hport).symm.trans h)

/-- Settles O9: it is the block of `Block.reset`. -/
theorem resetMeetsTheInvariant : Obligations.ResetMeetsTheInvariant :=
  .of_toBlock_reset State.reset_toBlock

/-! ### The frame of the commands -/

/-- A byte that a command changes lies in a buffer of its own (R49). -/
theorem Effect.changed_byte {s u : State} {i : Instr} {e : ErrCode} {info : BitVec 16} (h : Effect s i u e info)
    {a : Nat} (ha : u.mem.byteAt a ≠ s.mem.byteAt a) :
    ∃ b j, a = Buffer.base b + j ∧ j < Buffer.size s.params b ∧ writesBuffer i b := by
  rcases h.mem_cases with hmem | ⟨b, bs, hmem, hfit, hwrites⟩
  · exact absurd (by rw [hmem]) ha
  · rw [hmem, Memory.byteAt_writeBytes] at ha
    split at ha
    · exact ⟨b, a - b.base, by omega, by omega, hwrites⟩
    · exact absurd rfl ha

/-- Only CFG, PRESET32 and SRST change CFG or ACTIVE_ALPHA, and SRST not the latter (R49, R221). -/
theorem Effect.codec_frame {s u : State} {i : Instr} {e : ErrCode} {info : BitVec 16} (h : Effect s i u e info) :
    (u.cfg ≠ s.cfg → writesCodec i = true) ∧ (u.activeAlpha ≠ s.activeAlpha → writesCodec i = true ∧ i ≠ .srst) := by
  cases h <;> simp [writesCodec]

/-- Which command changes which length (R49). -/
theorem Effect.length_frame {s u : State} {i : Instr} {e : ErrCode} {info : BitVec 16} (h : Effect s i u e info) :
    (u.alphaLen ≠ s.alphaLen → i = .srst) ∧ (u.inLen ≠ s.inLen → i = .xfer ∨ i = .srst) ∧
    (u.outLen ≠ s.outLen → i = .enc ∨ i = .dec ∨ i = .srst) ∧
    (u.codeLen ≠ s.codeLen → isSetlen i = true ∨ i = .srst) := by
  cases h with
  | output hi _ => rcases hi with rfl | rfl <;> simp
  | _ => simp [isSetlen]

/-- Which command changes which register of the one-time code (R49). -/
theorem Effect.otp_frame {s u : State} {i : Instr} {e : ErrCode} {info : BitVec 16} (h : Effect s i u e info) :
    (u.time ≠ s.time → i = .srst) ∧ (u.ctr ≠ s.ctr → i = .tstep ∨ i = .srst) ∧
    (u.tval ≠ s.tval ∨ u.toff ≠ s.toff → i = .trunc ∨ i = .otp ∨ i = .srst) := by
  cases h <;> simp

/-- Settles O19: the report changes STATUS and ERRINFO alone, so what a command changes is what its effect does. -/
theorem commandsWriteOnlyTheirState : Obligations.CommandsWriteOnlyTheirState := by
  intro i s t h
  obtain ⟨b, hb⟩ := exec_changes_block_only i s
  obtain rfl := Host.Outcome.next.inj (hb.symm.trans h)
  obtain ⟨u, e, info, heff, ht⟩ := effect_of_exec hb
  obtain ⟨hcfg, halpha⟩ := heff.codec_frame
  obtain ⟨halphaLen, hinLen, houtLen, hcodeLen⟩ := heff.length_frame
  obtain ⟨htime, hctr, htval⟩ := heff.otp_frame
  refine ⟨?_, ?_, ?_, ?_, ?_, ?_, ?_, ?_, ?_, ?_, rfl, rfl, rfl, rfl⟩ <;> rw [ht]
  exacts [hcfg, halpha, halphaLen, hinLen, houtLen, htime, hctr, htval, hcodeLen, fun _ => heff.changed_byte]

/-- A register write changes no field of the codec. -/
theorem State.regWrite_keeps_codec (s : State) (v : Word) (r : Reg) :
    (s.regWrite v r).cfg = s.cfg ∧ (s.regWrite v r).activeAlpha = s.activeAlpha := by
  rcases s.regWrite_cases v r with h | h | h | h | ⟨_, h⟩ | ⟨_, h⟩ <;> rw [h] <;> exact ⟨rfl, rfl⟩

/-- A command word that changes CFG or ACTIVE_ALPHA is the word of CFG, PRESET32 or SRST (R28). -/
theorem execWord_changes_codec {w : Word} {s t : State} (h : execWord w s = .next t)
    (hne : t.cfg ≠ s.cfg ∨ t.activeAlpha ≠ s.activeAlpha) : ∃ i, decode w = .ok i ∧ writesCodec i = true := by
  rcases execWord_cases w s with ⟨i, hdec, hw⟩ | ⟨_, _, hw⟩
  · obtain ⟨hcfg, halpha, _⟩ := commandsWriteOnlyTheirState i s t (hw.symm.trans h)
    exact ⟨i, hdec, hne.elim hcfg (fun ha => (halpha ha).1)⟩
  · obtain rfl := Host.Outcome.next.inj (hw.symm.trans h)
    simp at hne

/-- Settles O20: of the things an event can do, only a command word and a reset reach the codec. -/
theorem onlyCfgPresetAndResetsChangeTheCodec : Obligations.OnlyCfgPresetAndResetsChangeTheCodec := by
  intro s t ev rest hport h hne
  rw [step_of_port hport] at h
  rcases State.serve_cases h with ⟨hblock, _⟩ | ⟨w, u, rfl, hw, rfl⟩ | ⟨r, v, rfl⟩ | ⟨b, i, v, _, rfl⟩ | ⟨hreset, _⟩
  · simp [hblock] at hne
  · obtain ⟨i, hdec, hi⟩ := execWord_changes_codec hw hne
    exact .inl ⟨w, i, rfl, hdec, hi⟩
  · simp [State.regWrite_keeps_codec] at hne
  · simp at hne
  · exact .inr hreset

/-! ### What the commands read -/

/-- The state with other flags: ERRCODE, ANYERR and ERRINFO (R25, R26). -/
def State.withFlags (s : State) (e : ErrCode) (any : Bool) (info : BitVec 16) : State :=
  { s with errCode := e, anyErr := any, errInfo := info }

/-- Two outcomes of a command are next states, the second being the first with one piece of state set. -/
def agreeUpTo {α : Type} (set : State → α → State) (o p : Host.Outcome State Fault Refusal) : Prop :=
  ∃ t x, o = .next t ∧ p = .next (set t x)

theorem agreeUpTo.eq_set {α : Type} {set : State → α → State} {o p : Host.Outcome State Fault Refusal} {t u : State}
    (h : agreeUpTo set o p) (ht : o = .next t) (hu : p = .next u) : ∃ x, u = set t x := by
  obtain ⟨t', x, ht', hu'⟩ := h
  obtain rfl := Host.Outcome.next.inj (ht.symm.trans ht')
  exact ⟨x, Host.Outcome.next.inj (hu.symm.trans hu')⟩

/-- Two commands that branch on the same condition agree if they do in both branches. -/
theorem agreeUpTo.ite {α : Type} {set : State → α → State} {c : Prop} [Decidable c]
    {o p o' p' : Host.Outcome State Fault Refusal} (hthen : agreeUpTo set o p) (helse : agreeUpTo set o' p') :
    agreeUpTo set (if c then o else o') (if c then p else p') := by
  split
  · exact hthen
  · exact helse

/-- The state with another ANYERR. -/
def State.setAnyErr (s : State) (any : Bool) : State := { s with anyErr := any }

/-- The state with another CFG. -/
def State.setCfg (s : State) (c : CfgReg) : State := { s with cfg := c }

/-- How DEC ends once it has looked its symbols up (R150, R155). -/
def State.endDec (s : State) : Except Nat (List Nat) → Host.Outcome State Fault Refusal
  | .error i => fail .badSym (BitVec.ofNat 16 i) s
  | .ok vals =>
    if decLen s.cfg.n.toNat vals.length > s.outCap then fail .ovf 0#16 s
    else succeed (s.putOutput (decBytes s.cfg.n.toNat vals))

theorem execDec_eq_endDec (s : State) :
    execDec s = if s.cfg.valid = false then fail .noCfg 0#16 s
      else if s.inLen.toNat > s.inCap then fail .len 0#16 s
      else s.endDec s.decValues := rfl

theorem State.endDec_withFlags (s : State) (e : ErrCode) (any : Bool) (info : BitVec 16)
    (values : Except Nat (List Nat)) :
    agreeUpTo State.setAnyErr (s.endDec values) ((s.withFlags e any info).endDec values) := by
  cases values with
  | error i => exact ⟨_, _, rfl, rfl⟩
  | ok vals => exact .ite ⟨_, _, rfl, rfl⟩ ⟨_, _, rfl, rfl⟩

/-- What a command does is the same whatever the flags are, but for ANYERR, which it may keep (R44): every condition it
branches on, and everything it writes, is a function of the rest of the state. -/
theorem exec_withFlags (i : Instr) (s : State) (e : ErrCode) (any : Bool) (info : BitVec 16) :
    agreeUpTo State.setAnyErr (exec i s) (exec i (s.withFlags e any info)) := by
  cases i with
  | cfg n ci rp pg pe pad =>
    have hread : (s.withFlags e any info).readBuf = s.readBuf := rfl
    have hlen : (s.withFlags e any info).alphaLen = s.alphaLen := rfl
    simp only [exec, execCfg, hread, hlen]
    split <;> exact ⟨_, _, rfl, rfl⟩
  | enc => exact .ite ⟨_, _, rfl, rfl⟩ (.ite ⟨_, _, rfl, rfl⟩ (.ite ⟨_, _, rfl, rfl⟩ ⟨_, _, rfl, rfl⟩))
  | dec =>
    simp only [exec, execDec_eq_endDec]
    exact .ite ⟨_, _, rfl, rfl⟩ (.ite ⟨_, _, rfl, rfl⟩ (s.endDec_withFlags e any info s.decValues))
  | xfer => exact .ite ⟨_, _, rfl, rfl⟩ ⟨_, _, rfl, rfl⟩
  | _ => exact ⟨_, _, rfl, rfl⟩

/-- The state with another VALID (R27). -/
def State.withValid (s : State) (v : Bool) : State := { s with cfg := { s.cfg with valid := v } }

/-- What a command other than ENC and DEC does is the same whatever VALID is, but for CFG, which it may keep (R44): CFG
itself overwrites VALID, and no other of them reads the register. -/
theorem exec_withValid (i : Instr) (s : State) (v : Bool) (henc : i ≠ .enc) (hdec : i ≠ .dec) :
    agreeUpTo State.setCfg (exec i s) (exec i (s.withValid v)) := by
  cases i with
  | cfg n ci rp pg pe pad =>
    rcases execCfg_cases n ci rp pg pe pad s with ⟨_, _, h⟩ | ⟨_, h⟩ <;> exact ⟨_, _, h, h⟩
  | enc => exact absurd rfl henc
  | dec => exact absurd rfl hdec
  | xfer => exact .ite ⟨_, _, rfl, rfl⟩ ⟨_, _, rfl, rfl⟩
  | _ => exact ⟨_, _, rfl, rfl⟩

/-- Settles O21, command by command: with other flags, and with another VALID, the same branch is taken. -/
theorem nothingReadsAFlagButValid : Obligations.NothingReadsAFlagButValid := by
  refine ⟨fun i s t u e any info ht hu => ?_, fun i s t u v henc hdec ht hu => ?_⟩
  · obtain ⟨any', rfl⟩ := (exec_withFlags i s e any info).eq_set ht hu
    rfl
  · obtain ⟨c, rfl⟩ := (exec_withValid i s v henc hdec).eq_set ht hu
    rfl

/-- Two digests that agree in all 20 bytes have the same truncated value: the offset is at most 15, so the four bytes
taken are bytes of the digest (R183). -/
theorem truncValue_congr {d d' : Nat → Byte} (h : ∀ i, i < 20 → d i = d' i) : truncValue d = truncValue d' := by
  have hoff := truncOffset_le (d' 19)
  simp only [truncValue]
  rw [h 19 (by omega), h _ (show truncOffset (d' 19) < 20 by omega), h _ (show truncOffset (d' 19) + 1 < 20 by omega),
    h _ (show truncOffset (d' 19) + 2 < 20 by omega), h _ (show truncOffset (d' 19) + 3 < 20 by omega)]

/-- A byte of the code that OTP writes (R184, R185). -/
theorem truncate_format_byteAt (s : State) {j : Nat} (hj : j < s.codeLen.toNat) :
    s.truncate.format.mem.byteAt (0x300 + j) = (codeDigits s.codeLen.toNat (truncValue s.digest).toNat)[j]? :=
  Memory.byteAt_writeBytes_inside _ _ _ _ (by simpa using hj)

/-- Settles O46: TOFF and TVAL are functions of the digest, and the code is one of TVAL and CODE_LEN. -/
theorem otpDependsOnDigestAndCodeLengthAlone : Obligations.OtpDependsOnDigestAndCodeLengthAlone := by
  intro s s' t t' hdigest hlen ht ht'
  obtain rfl := Host.Outcome.next.inj ht
  obtain rfl := Host.Outcome.next.inj ht'
  have hlast : s.digest 19 = s'.digest 19 := hdigest 19 (by omega)
  have hval : truncValue s.digest = truncValue s'.digest := truncValue_congr hdigest
  refine ⟨by simp [hlast], by simp [hval], fun j hj => ?_⟩
  simp only [State.report_mem, truncate_format_byteAt s hj, truncate_format_byteAt s' (hlen ▸ hj), hlen, hval]

/-! ### Transactions to one location -/

/-- A size-4 write to a register other than CMD writes the register and gets OKAY. -/
theorem step_of_registerWrite {s : State} {rest : List PortEvent} {r : Reg} {v : Word}
    (h : s.port = .bus (.write (BitVec.ofNat 14 r.offset) (.four v)) :: rest) (hr : r ≠ .cmd) :
    step s = .next ((State.regWrite { s with port := rest } v r).respond okayWrite) := by
  rw [step_of_port h]
  cases r with
  | cmd => exact absurd rfl hr
  | _ => rfl

/-- A window offset fits the 14 bits of an offset (R61). -/
theorem Buffer.toNat_ofNat_base_add {p : Params} {b : Buffer} {i : Nat} (hi : i < b.size p) :
    (BitVec.ofNat 14 (b.base + i)).toNat = b.base + i := by
  have hbase : b.base ≤ 0x2000 := by cases b <;> decide
  have hsize := b.size_le p
  rw [BitVec.toNat_ofNat]
  omega

/-- A size-1 read of a window byte answers OKAY with what storage reads there. -/
theorem step_of_windowRead {s : State} {rest : List PortEvent} {b : Buffer} {i : Nat} (hi : i < b.size s.params)
    (h : s.port = .bus (.read (BitVec.ofNat 14 (b.base + i)) .one) :: rest) :
    step s = .next ((State.nextTick { s with port := rest }).respond
      (okayRead ((s.storage 0 (b.base + i)).setWidth 64))) := by
  have hloc : locate s.params (BitVec.ofNat 14 (b.base + i)).toNat = some (.byte b i) := by
    rw [Buffer.toNat_ofNat_base_add hi, locate_byte _ _ hi]
  rw [step_of_port h]
  simp only [State.serve, State.serveTransaction, State.serveRead, hloc]
  rfl

/-- Settles O52: the three cases of `State.storage`. -/
theorem windowReadsReturnTheByte : Obligations.WindowReadsReturnTheByte := by
  intro s rest b i hi hport
  refine ⟨_, _, step_of_windowRead hi hport, rfl, fun x hx => s.storage_of_written 0 hx, fun hnone hstable => ?_,
    fun hnone hfresh => ?_⟩
  · simp [State.storage, hnone, hstable]
  · simp [State.storage, hnone, hfresh]

/-! ### Registers on the bus -/

/-- The number of a concatenation. -/
theorem toNat_append_eq_add {m n : Nat} (x : BitVec m) (y : BitVec n) : (x ++ y).toNat = x.toNat * 2 ^ n + y.toNat := by
  rw [BitVec.toNat_append, ← Nat.shiftLeft_add_eq_or_of_lt y.isLt, Nat.shiftLeft_eq]

/-- A 64-bit register put together from two halves (R72), as a number. -/
theorem toNat_halves (hi lo : Word) : @BitVec.toNat 64 (hi ++ lo : BitVec (32 + 32)) = hi.toNat * 2 ^ 32 + lo.toNat :=
  toNat_append_eq_add hi lo

/-- The low half of a 64-bit register as a number. -/
theorem toNat_lowHalf (x : BitVec 64) : (x.extractLsb' 0 32).toNat = x.toNat % 2 ^ 32 := by
  simp

/-- The high half of a 64-bit register as a number. -/
theorem toNat_highHalf (x : BitVec 64) : (x.extractLsb' 32 32).toNat = x.toNat / 2 ^ 32 := by
  have hx := x.isLt
  rw [BitVec.extractLsb'_toNat, Nat.shiftRight_eq_div_pow, Nat.mod_eq_of_lt (by omega)]

/-- Settles O54, register by register. -/
theorem registerWritesStoreTheirBits : Obligations.RegisterWritesStoreTheirBits := by
  intro s rest r v hr hport
  have hcmd : r ≠ .cmd := by rintro rfl; simp at hr
  refine ⟨_, step_of_registerWrite hport hcmd, ?_⟩
  simp only [List.mem_cons, List.not_mem_nil, or_false] at hr
  rcases hr with rfl | rfl | rfl | rfl | rfl | rfl <;> refine ⟨rfl, ?_⟩ <;>
    simp [State.regWrite, toNat_halves, toNat_lowHalf, toNat_highHalf, -BitVec.extractLsb'_toNat]

/-- Settles O8, register by register. -/
theorem resetGivesTheRegistersTheirResetValues : Obligations.ResetGivesTheRegistersTheirResetValues := by
  intro r
  cases r <;> rfl

/-- STATUS as a number: its three fields, each at its bit (R25). -/
theorem toNat_regRead_status (s : State) :
    (s.regRead .status).toNat = s.errCode.code.toNat + 256 * s.anyErr.toNat + 512 * s.cfg.valid.toNat := by
  simp only [State.regRead, toNat_append_eq_add, BitVec.toNat_ofBool, BitVec.toNat_ofNat]
  omega

/-- Settles O14: a STATUS write is the register write of `State.regWrite`, which looks at bit 8 alone. -/
theorem statusLayoutAndWriteOneToClear : Obligations.StatusLayoutAndWriteOneToClear := by
  refine fun s => ⟨toNat_regRead_status s, fun rest v hport => ?_⟩
  rw [step_of_registerWrite (r := .status) hport (by decide)]
  simp only [State.regWrite]
  split <;> rfl

end Sys2Proof.Machine
end

section
/-! PROOFS. The memory family (20_memory.md): the address map both ways, which transactions get SLVERR, and what a
transaction with its location's own size does to a register or to a window byte. -/

namespace Sys2Proof.Machine
open Sys2Proof.Spec

/-! ### The address map -/

theorem locate_eq_reg_iff (p : Params) (off : Nat) (r : Reg) : locate p off = some (.reg r) ↔ off = r.offset :=
  ⟨locate_eq_reg, fun h => h ▸ locate_reg p r⟩

theorem locate_eq_byte_iff (p : Params) (off : Nat) (b : Buffer) (i : Nat) :
    locate p off = some (.byte b i) ↔ off = b.base + i ∧ i < b.size p :=
  ⟨locate_eq_byte, fun ⟨hoff, hi⟩ => hoff ▸ locate_byte p b hi⟩

/-- The unmapped ranges lie above every register and between the windows (R65, R66). -/
theorem locate_unmapped {p : Params} {off : Nat} (h : unmapped p off) : locate p off = none := by
  unfold unmapped at h
  rcases hloc : locate p off with _ | ⟨r⟩ | ⟨b, i⟩
  · rfl
  · have hreg := r.offset_lt
    have hoff := locate_eq_reg hloc
    omega
  · have hin := p.inCap.2
    have hout := p.outCap.2
    obtain ⟨hoff, hi⟩ := locate_eq_byte hloc
    cases b <;> simp only [Buffer.base, Buffer.size] at hoff hi <;> omega

/-- Settles O47, from what the map answers for a register, for a window byte and between them. -/
theorem theAddressMapIsTheSpecs : Obligations.TheAddressMapIsTheSpecs :=
  fun p off => ⟨locate_eq_reg_iff p off, locate_eq_byte_iff p off, locate_unmapped⟩

/-! ### SLVERR -/

/-- The transaction has the size of the location at its offset: 4 for a register (R63), 1 for a window byte (R64). -/
def Transaction.fits (p : Params) (tr : Transaction) : Prop :=
  (∃ r, locate p tr.off = some (.reg r) ∧ tr.size = .four) ∨
  (∃ b i, locate p tr.off = some (.byte b i) ∧ tr.size = .one)

/-- A transaction that does not fit its offset gets SLVERR, read or write, and has no effect (R63 to R66). -/
theorem State.serveTransaction_of_not_fits {s : State} {tr : Transaction} (h : ¬ tr.fits s.params) :
    s.serveTransaction tr = .next (s.respond slverr) := by
  cases tr with
  | read off size =>
    rcases s.serveRead_cases off size with hr | ⟨r, hloc, hsize, _⟩ | ⟨b, i, hloc, hsize, _⟩
    · exact congrArg Host.Outcome.next hr
    · exact absurd (.inl ⟨r, hloc, hsize⟩) h
    · exact absurd (.inr ⟨b, i, hloc, hsize⟩) h
  | write off data =>
    rcases s.serveWrite_cases off data with hw | ⟨w, hoff, rfl, _⟩ | ⟨r, v, hloc, _, rfl, _⟩ | ⟨b, i, v, hloc, rfl, _⟩ |
      ⟨b, i, v, hloc, rfl, _⟩
    · exact hw
    · exact absurd (.inl ⟨.cmd, (locate_eq_reg_iff _ _ _).2 hoff, rfl⟩) h
    · exact absurd (.inl ⟨r, hloc, rfl⟩) h
    · exact absurd (.inr ⟨b, i, hloc, rfl⟩) h
    · exact absurd (.inr ⟨b, i, hloc, rfl⟩) h

theorem step_of_not_fits {s : State} {rest : List PortEvent} {tr : Transaction} (hport : s.port = .bus tr :: rest)
    (h : ¬ tr.fits s.params) : step s = .next (afterSlverr s rest) := by
  rw [step_of_port hport]
  exact State.serveTransaction_of_not_fits (s := { s with port := rest }) h

/-- Settles O48: nothing stands at an unmapped offset, so no transaction fits it. -/
theorem unmappedOffsetsGetSlverr : Obligations.UnmappedOffsetsGetSlverr := by
  intro s rest tr hport hun
  refine step_of_not_fits hport ?_
  simp [Transaction.fits, locate_unmapped hun]

/-- Settles O49: below 0x038 stand registers alone, at multiples of 4, and in a window its bytes alone. -/
theorem wrongSizeOrAlignmentGetsSlverr : Obligations.WrongSizeOrAlignmentGetsSlverr := by
  intro s rest tr hport hwrong
  refine step_of_not_fits hport ?_
  rcases hwrong with ⟨hlow, hbad⟩ | ⟨b, i, hi, hoff, hsize⟩
  · rintro (⟨r, hloc, hfour⟩ | ⟨b, i, hloc, -⟩)
    · have halign := r.offset_lt.2
      rw [← locate_eq_reg hloc] at halign
      exact hbad.elim (absurd halign) (absurd hfour)
    · have hbase : 0x100 ≤ b.base := by cases b <;> decide
      have hoff := (locate_eq_byte hloc).1
      omega
  · have hloc := (locate_eq_byte_iff s.params tr.off b i).2 ⟨hoff, hi⟩
    simp [Transaction.fits, hloc, hsize]

/-! ### Reads -/

/-- A register on the bus, as a number: its fields at their bits (R25 to R43). -/
theorem toNat_regRead (s : State) (r : Reg) : (s.regRead r).toNat = regValue s r := by
  cases r with
  | cmd => rfl
  | status => exact toNat_regRead_status s
  | cfg =>
    simp only [State.regRead, regValue, toNat_append_eq_add, BitVec.toNat_ofBool, BitVec.toNat_ofNat]
    omega
  | timeLo => exact toNat_lowHalf s.time
  | timeHi => exact toNat_highHalf s.time
  | ctrLo => exact toNat_lowHalf s.ctr
  | ctrHi => exact toNat_highHalf s.ctr
  | _ => exact BitVec.toNat_setWidth_of_le (by decide)

/-- A size-4 read of a register answers OKAY with the register's value. -/
theorem step_of_registerRead {s : State} {rest : List PortEvent} {r : Reg}
    (h : s.port = .bus (.read (BitVec.ofNat 14 r.offset) .four) :: rest) :
    step s = .next (State.respond { s with port := rest } (okayRead ((s.regRead r).setWidth 64))) := by
  rw [step_of_port h]
  cases r <;> rfl

/-- Settles O51: a register read answers the register's fields as a number. -/
theorem registerReadsReturnTheirFields : Obligations.RegisterReadsReturnTheirFields := by
  intro s rest r hport
  have hvalue : (s.regRead r).setWidth 64 = BitVec.ofNat 64 (regValue s r) := by
    rw [← toNat_regRead, BitVec.ofNat_toNat]
  rw [step_of_registerRead hport, hvalue]
  rfl

theorem step_of_read {s : State} {rest : List PortEvent} {off : BitVec 14} {size : AccessSize}
    (h : s.port = .bus (.read off size) :: rest) : step s = .next (State.serveRead { s with port := rest } off size) :=
  step_of_port h

/-- A read changes the response and the read counter, nothing else. -/
theorem State.serveRead_frame (s : State) (off : BitVec 14) (size : AccessSize) :
    ∃ r k, s.serveRead off size = { s with response := r, tick := k } := by
  rcases s.serveRead_cases off size with h | ⟨_, _, _, h⟩ | ⟨_, _, _, _, h⟩ <;> exact ⟨_, _, h⟩

/-- What a read answers depends on the block, the parameters and, at a window byte, on what storage reads there. -/
theorem State.serveRead_response_congr {s s' : State} {off : BitVec 14} (size : AccessSize)
    (hblock : s'.toBlock = s.toBlock) (hparams : s'.params = s.params)
    (hbyte : ∀ b i, locate s.params off.toNat = some (.byte b i) → s'.storage 0 off.toNat = s.storage 0 off.toNat) :
    (s'.serveRead off size).response = (s.serveRead off size).response := by
  have hreg : ∀ r, s'.regRead r = s.regRead r := fun r => by cases r <;> simp only [State.regRead, hblock]
  unfold State.serveRead
  rw [hparams]
  split
  · simp [hreg]
  · next b i hloc =>
    have hb := hbyte b i hloc
    rw [(locate_eq_byte hloc).1] at hb
    simp [hb]
  · rfl

/-- A storage byte reads the same as long as it is written or STABLE_UNINIT holds (R48). -/
theorem State.storage_congr {s s' : State} {off : Nat} (pass : Nat) (hmem : s'.mem = s.mem)
    (hparams : s'.params = s.params) (hresets : s'.resets = s.resets)
    (h : s.params.stableUninit = true ∨ s.mem.byteAt off ≠ none) :
    s'.storage pass off = s.storage pass off := by
  unfold State.storage
  rw [hmem, hparams, hresets]
  split
  · rfl
  · next hnone => simp [h.resolve_right (absurd hnone)]

/-- Settles O53: a read has the frame of `State.serveRead_frame`, so the second one finds the same block. -/
theorem readsChangeNothing : Obligations.ReadsChangeNothing := by
  refine fun s off size => ⟨fun rest hport => ?_, fun rest u t hport hu ht hsame => ?_⟩
  · obtain ⟨r, k, hread⟩ := State.serveRead_frame { s with port := rest } off size
    exact ⟨_, (step_of_read hport).trans (congrArg _ hread), rfl⟩
  · obtain ⟨r, k, hread⟩ := State.serveRead_frame { s with port := .bus (.read off size) :: rest } off size
    have hfirst := (step_of_read hport).symm.trans hu
    rw [hread] at hfirst
    obtain rfl := Host.Outcome.next.inj hfirst
    obtain rfl := Host.Outcome.next.inj ((step_of_read rfl).symm.trans ht)
    refine Eq.trans ?_ (congrArg State.response hread)
    refine State.serveRead_response_congr size rfl rfl fun b i hloc => ?_
    refine State.storage_congr 0 rfl rfl rfl ?_
    rcases hsame with hstable | hwritten | hnobyte
    · exact .inl hstable
    · exact .inr hwritten
    · exact absurd hloc (hnobyte b i)

/-! ### Writes -/

/-- Two writes, the low half first, leave the value given, whatever the old one was (R72, R110). -/
theorem append_halves (old x : BitVec 64) :
    (x.extractLsb' 32 32 ++ (old.extractLsb' 32 32 ++ x.extractLsb' 0 32 : BitVec (32 + 32)).extractLsb' 0 32 :
      BitVec (32 + 32)) = x := by
  refine BitVec.eq_of_toNat_eq ?_
  rw [toNat_halves, toNat_lowHalf, toNat_halves, toNat_lowHalf, toNat_highHalf]
  omega

/-- Settles O55: two register writes, which put the two halves together. -/
theorem twoHalfWritesSetTheWholeValue : Obligations.TwoHalfWritesSetTheWholeValue := by
  refine fun s rest x => ⟨fun hport => ?_, fun hport => ?_⟩
  · refine ⟨_, _, step_of_registerWrite hport (by decide), step_of_registerWrite (r := .timeHi) rfl (by decide), ?_⟩
    simp [State.regWrite, State.respond, append_halves]
  · refine ⟨_, _, step_of_registerWrite hport (by decide), step_of_registerWrite (r := .ctrHi) rfl (by decide), ?_⟩
    simp [State.regWrite, State.respond, append_halves]

/-- A size-1 write of a window byte gets OKAY and stores the byte, or nothing in a read-only window (R67). -/
theorem step_of_windowWrite {s : State} {rest : List PortEvent} {b : Buffer} {i : Nat} {x : Byte}
    (hi : i < b.size s.params) (h : s.port = .bus (.write (BitVec.ofNat 14 (b.base + i)) (.one x)) :: rest) :
    step s = .next (State.respond (if b.hostWritable then State.writeBufByte { s with port := rest } b i x
      else { s with port := rest }) okayWrite) := by
  have hloc : locate s.params (BitVec.ofNat 14 (b.base + i)).toNat = some (.byte b i) := by
    rw [Buffer.toNat_ofNat_base_add hi, locate_byte _ _ hi]
  rw [step_of_port h]
  simp only [State.serve, State.serveTransaction, State.serveWrite, hloc]

/-- Settles O56: ALPHA, DIGEST and IN_BUF are the writable windows, and a write to one is a `Memory.writeByte`. -/
theorem windowWritesStoreOneByte : Obligations.WindowWritesStoreOneByte := by
  intro s rest b i x hb hi hport
  have hwritable : b.hostWritable = true := by
    simp only [List.mem_cons, List.not_mem_nil, or_false] at hb
    rcases hb with rfl | rfl | rfl <;> rfl
  have hstep := step_of_windowWrite hi hport
  rw [if_pos hwritable] at hstep
  exact ⟨_, hstep, rfl, Memory.byteAt_writeByte_same _ _ _, fun a ha => Memory.byteAt_writeByte_other _ _ ha⟩

/-- A register write that keeps the state is ignored. -/
theorem ignored_of_registerWrite {s : State} {rest : List PortEvent} {r : Reg} {v : Word} (hr : r ≠ .cmd)
    (hkeep : State.regWrite { s with port := rest } v r = { s with port := rest })
    (hport : s.port = .bus (.write (BitVec.ofNat 14 r.offset) (.four v)) :: rest) : ignored s rest := by
  have hstep := step_of_registerWrite hport hr
  rw [hkeep] at hstep
  exact ⟨_, okayWrite, hstep, rfl, rfl⟩

/-- Settles O57: what a write does to a register is `State.regWrite`, and to a read-only window nothing. -/
theorem readOnlyWritesAreIgnored : Obligations.ReadOnlyWritesAreIgnored := by
  refine fun s rest => ⟨fun v hport => ?_, fun r v hr hport => ?_, fun b i x hb hi hport => ?_⟩
  · obtain ⟨_, hstatus⟩ := statusLayoutAndWriteOneToClear s
    exact ⟨_, hstatus rest v hport, rfl⟩
  · rcases hr with hr | ⟨rfl, hbit⟩
    · simp only [List.mem_cons, List.not_mem_nil, or_false] at hr
      rcases hr with rfl | rfl | rfl | rfl | rfl | rfl <;> exact ignored_of_registerWrite (by decide) rfl hport
    · exact ignored_of_registerWrite (by decide) (by simp only [State.regWrite, hbit, Bool.false_eq_true, if_false]) hport
  · have hreadOnly : ¬ b.hostWritable = true := by
      simp only [List.mem_cons, List.not_mem_nil, or_false] at hb
      rcases hb with rfl | rfl | rfl <;> decide
    have hstep := step_of_windowWrite hi hport
    rw [if_neg hreadOnly] at hstep
    exact ⟨_, okayWrite, hstep, rfl, rfl⟩

/-! ### Command writes -/

/-- A size-4 write to CMD is the command engine's run on the word, answered OKAY (R78). -/
theorem step_of_commandWrite {s : State} {rest : List PortEvent} {w : Word}
    (h : s.port = .bus (.write 0x000#14 (.four w)) :: rest) :
    step s = acknowledge (execWord w { s with port := rest }) := by
  rw [step_of_port h]
  rfl

theorem execWord_of_decode_ok {w : Word} {i : Instr} (h : decode w = .ok i) (s : State) : execWord w s = exec i s := by
  rw [execWord, h]

theorem execWord_of_decode_error {w : Word} {e : DecodeError} (h : decode w = .error e) (s : State) :
    execWord w s = .next (s.report .illegal 0#16) := by
  rw [execWord, h]
  rfl

/-- Settles O6: the engine gives a next state for every word, and decoding says which. -/
theorem stepRunsTheDecodedCommand : Obligations.StepRunsTheDecodedCommand := by
  intro s rest w hport
  obtain ⟨t, ht⟩ := execWord_next w { s with port := rest }
  refine ⟨t, ht, ?_, fun i hi => ?_, fun e he => ?_⟩
  · rw [step_of_commandWrite hport, ht]
    rfl
  · rw [← execWord_of_decode_ok hi, ht]
  · obtain rfl := Host.Outcome.next.inj ((execWord_of_decode_error he _).symm.trans ht)
    simp [failed, State.report]

end Sys2Proof.Machine
end

section
/-! PROOFS. The encoding family (30_encoding.md): the fields of the words of each format, the decoder by kind of OP,
that it and the encoder are inverse to each other, and which words are illegal. -/

namespace Sys2Proof
open Machine Spec

/-! ### The fields of a word, by format (R101, R102) -/

@[simp] theorem opField_wordF0 (op : Byte) : opField (wordF0 op) = op := BitVec.extractLsb'_append_eq_right

@[simp] theorem wordF0_reserved (op : Byte) : (wordF0 op).extractLsb' 8 24 = 0#24 := BitVec.extractLsb'_append_eq_left

@[simp] theorem opField_wordFI (imm op : Byte) : opField (wordFI imm op) = op := BitVec.extractLsb'_append_eq_right

@[simp] theorem wordFI_imm (imm op : Byte) : (wordFI imm op).extractLsb' 8 8 = imm := by
  rw [wordFI, BitVec.extractLsb'_append_eq_of_le (by decide)]
  exact BitVec.extractLsb'_append_eq_right

@[simp] theorem wordFI_reserved (imm op : Byte) : (wordFI imm op).extractLsb' 16 16 = 0#16 := by
  rw [wordFI, BitVec.extractLsb'_append_eq_of_le (by decide)]
  exact BitVec.extractLsb'_append_eq_left

section FormatFC
variable (pad : Byte) (pe pg rp ci : Bool) (n : BitVec 4) (op : Byte)

@[simp] theorem opField_wordFC : opField (wordFC pad pe pg rp ci n op) = op := BitVec.extractLsb'_append_eq_right

@[simp] theorem wordFC_n : (wordFC pad pe pg rp ci n op).extractLsb' 8 4 = n := by
  unfold wordFC
  repeat rw [BitVec.extractLsb'_append_eq_of_le (by decide)]
  exact BitVec.extractLsb'_append_eq_right

theorem wordFC_ci : (wordFC pad pe pg rp ci n op).getLsbD 12 = ci := by
  simp only [wordFC, BitVec.getLsbD_append]
  simp

theorem wordFC_rp : (wordFC pad pe pg rp ci n op).getLsbD 13 = rp := by
  simp only [wordFC, BitVec.getLsbD_append]
  simp

theorem wordFC_pg : (wordFC pad pe pg rp ci n op).getLsbD 14 = pg := by
  simp only [wordFC, BitVec.getLsbD_append]
  simp

theorem wordFC_pe : (wordFC pad pe pg rp ci n op).getLsbD 15 = pe := by
  simp only [wordFC, BitVec.getLsbD_append]
  simp

@[simp] theorem wordFC_pad : (wordFC pad pe pg rp ci n op).extractLsb' 16 8 = pad := by
  unfold wordFC
  repeat rw [BitVec.extractLsb'_append_eq_of_le (by decide)]
  exact BitVec.extractLsb'_append_eq_right

@[simp] theorem wordFC_reserved : (wordFC pad pe pg rp ci n op).extractLsb' 24 8 = 0#8 := by
  unfold wordFC
  repeat rw [BitVec.extractLsb'_append_eq_of_le (by decide)]
  exact BitVec.extractLsb'_eq_self

end FormatFC

/-! ### A word put together again from its fields -/

theorem ofBool_getLsbD {m : Nat} (x : BitVec m) (i : Nat) : BitVec.ofBool (x.getLsbD i) = x.extractLsb' i 1 := by
  ext j hj
  obtain rfl : j = 0 := by omega
  simp

theorem wordF0_opField {w : Word} (h : w.extractLsb' 8 24 = 0#24) : wordF0 (opField w) = w := by
  rw [wordF0, opField, ← h, BitVec.extractLsb'_append_extractLsb']

theorem wordFI_fields {w : Word} (h : w.extractLsb' 16 16 = 0#16) : wordFI (w.extractLsb' 8 8) (opField w) = w := by
  rw [wordFI, opField, ← h]
  repeat rw [BitVec.extractLsb'_append_extractLsb'_eq_extractLsb' (by decide)]
  exact BitVec.extractLsb'_eq_self

theorem wordFC_fields {w : Word} (h : w.extractLsb' 24 8 = 0#8) :
    wordFC (w.extractLsb' 16 8) (w.getLsbD 15) (w.getLsbD 14) (w.getLsbD 13) (w.getLsbD 12) (w.extractLsb' 8 4)
      (opField w) = w := by
  rw [wordFC, opField, ← h]
  simp only [ofBool_getLsbD]
  repeat rw [BitVec.extractLsb'_append_extractLsb'_eq_extractLsb' (by decide)]
  exact BitVec.extractLsb'_eq_self

/-! ### The OP values (R105) -/

theorem f0Command_eq_none_iff (op : Byte) : f0Command op = none ↔ op ∉ opsF0 := by
  simp only [f0Command, ite_eq_iff, reduceCtorEq, and_false, false_or, and_true]
  simp [opsF0]

theorem encode_of_f0Command {op : Byte} {i : Instr} (h : f0Command op = some i) :
    i.wellFormed = true ∧ encode i = wordF0 op := by
  simp only [f0Command, ite_eq_iff, Option.some.injEq, reduceCtorEq, and_false] at h
  repeat' rcases h with ⟨rfl, rfl⟩ | ⟨-, h⟩
  all_goals exact ⟨rfl, rfl⟩

theorem mem_opsF0_of_f0Command {op : Byte} {i : Instr} (h : f0Command op = some i) : op ∈ opsF0 := by
  by_contra hmem
  simp [(f0Command_eq_none_iff op).2 hmem] at h

/-- CFG and SETLEN have operands. -/
theorem ne_of_f0Command {op : Byte} {i : Instr} (h : f0Command op = some i) : op ≠ 0x01#8 ∧ op ≠ 0x22#8 := by
  have hne : ∀ o ∈ opsF0, o ≠ 0x01#8 ∧ o ≠ 0x22#8 := by decide
  exact hne op (mem_opsF0_of_f0Command h)

/-- Every OP is CFG's, SETLEN's, that of a command without operands, or unassigned. -/
theorem op_cases (op : Byte) :
    op = 0x01#8 ∨ op = 0x22#8 ∨ (∃ i, f0Command op = some i) ∨ (op ≠ 0x01#8 ∧ op ≠ 0x22#8 ∧ op ∉ opsF0) := by
  rw [← f0Command_eq_none_iff]
  cases f0Command op with
  | some i => exact .inr (.inr (.inl ⟨i, rfl⟩))
  | none => tauto

/-! ### The decoder, by kind of OP (R112) -/

section Decode
variable {w : Word}

theorem decode_of_op_cfg (hop : opField w = 0x01#8) :
    decode w = if w.extractLsb' 24 8 = 0#8 then .ok (cfgOfWord w) else .error (.reservedBits 0x01#8) := by
  simp [decode, hop]

theorem decode_of_op_setlen (hop : opField w = 0x22#8) :
    decode w = if w.extractLsb' 16 16 = 0#16 then .ok (.setlen (w.extractLsb' 8 8))
      else .error (.reservedBits 0x22#8) := by
  simp [decode, hop]

theorem decode_of_f0Command {i : Instr} (hi : f0Command (opField w) = some i) :
    decode w = if w.extractLsb' 8 24 = 0#24 then .ok i else .error (.reservedBits (opField w)) := by
  obtain ⟨hcfg, hsetlen⟩ := ne_of_f0Command hi
  simp [decode, hcfg, hsetlen, hi]

theorem decode_of_unassigned (hcfg : opField w ≠ 0x01#8) (hsetlen : opField w ≠ 0x22#8) (hf0 : opField w ∉ opsF0) :
    decode w = .error (.unassignedOp (opField w)) := by
  simp [decode, hcfg, hsetlen, (f0Command_eq_none_iff _).2 hf0]

end Decode

/-! ### Decoding undoes encoding -/

theorem decode_wordF0 {op : Byte} {i : Instr} (h : f0Command op = some i) : decode (wordF0 op) = .ok i := by
  rw [decode_of_f0Command (by rwa [opField_wordF0]), if_pos (wordF0_reserved op)]

theorem decode_wordFI (imm : Byte) : decode (wordFI imm 0x22#8) = .ok (.setlen imm) := by
  rw [decode_of_op_setlen (opField_wordFI ..), if_pos (wordFI_reserved ..), wordFI_imm]

theorem decode_wordFC (pad : Byte) (pe pg rp ci : Bool) (n : BitVec 4) :
    decode (wordFC pad pe pg rp ci n 0x01#8) = .ok (.cfg n.toNat ci rp pg pe pad) := by
  rw [decode_of_op_cfg (opField_wordFC ..), if_pos (wordFC_reserved ..)]
  rw [cfgOfWord, wordFC_n, wordFC_ci, wordFC_rp, wordFC_pg, wordFC_pe, wordFC_pad]

/-- Settles O1, format by format: each field of a word is what the encoder put there, and a well-formed N fits in its
4 bits. -/
theorem decodeOfEncodeIsTheCommand : Obligations.DecodeOfEncodeIsTheCommand := by
  intro i hi
  cases i with
  | cfg n ci rp pg pe pad =>
    have hn : n < 16 := by simpa [Instr.wellFormed] using hi
    rw [encode, decode_wordFC, BitVec.toNat_ofNat, Nat.mod_eq_of_lt hn]
  | setlen imm => exact decode_wordFI imm
  | _ => exact decode_wordF0 rfl

/-! ### Encoding undoes decoding -/

theorem cfgOfWord_wellFormed (w : Word) : (cfgOfWord w).wellFormed = true :=
  decide_eq_true (w.extractLsb' 8 4).isLt

theorem encode_cfgOfWord {w : Word} (hop : opField w = 0x01#8) (h : w.extractLsb' 24 8 = 0#8) :
    encode (cfgOfWord w) = w := by
  rw [cfgOfWord, encode, BitVec.ofNat_toNat, BitVec.setWidth_eq, ← hop, wordFC_fields h]

/-- Settles O2, by kind of OP: the must-be-0 field of an accepted word is 0, so its fields make up all of it. -/
theorem encodeOfDecodeIsTheWord : Obligations.EncodeOfDecodeIsTheWord := by
  intro w i h
  rcases op_cases (opField w) with hop | hop | ⟨j, hj⟩ | ⟨hcfg, hsetlen, hf0⟩
  · rw [decode_of_op_cfg hop] at h
    split_ifs at h with hzero
    cases h
    exact ⟨cfgOfWord_wellFormed w, encode_cfgOfWord hop hzero⟩
  · rw [decode_of_op_setlen hop] at h
    split_ifs at h with hzero
    cases h
    exact ⟨rfl, by rw [encode, ← hop, wordFI_fields hzero]⟩
  · rw [decode_of_f0Command hj] at h
    split_ifs at h with hzero
    cases h
    obtain ⟨hwf, henc⟩ := encode_of_f0Command hj
    exact ⟨hwf, by rw [henc, wordF0_opField hzero]⟩
  · rw [decode_of_unassigned hcfg hsetlen hf0] at h
    cases h

/-! ### The rows of the opcode map (R105) -/

theorem encodesToItsRow (i : Instr) : Laws.EncodesToItsRow.Statement i := by
  open Laws.EncodesToItsRow in
  cases i with
  | nop => exact nop
  | cfg n ci rp pg pe pad => exact cfg n ci rp pg pe pad
  | preset32 => exact preset32
  | enc => exact enc
  | dec => exact dec
  | xfer => exact xfer
  | tstep => exact tstep
  | ser => exact ser
  | setlen imm => exact setlen imm
  | trunc => exact trunc
  | fmt => exact fmt
  | otp => exact otp
  | srst => exact srst

/-- A field that a row's mask covers holds the row's match bits in every word that matches the row. -/
theorem OpcodeRow.field_of_matches {r : OpcodeRow} {w : Word} (hm : r.matches w = true) {start len : Nat}
    (hmask : r.mask.extractLsb' start len = BitVec.allOnes len) :
    w.extractLsb' start len = r.matchBits.extractLsb' start len := by
  have hand : w &&& r.mask = r.matchBits := eq_of_beq hm
  rw [← hand, BitVec.extractLsb'_and, hmask, BitVec.and_allOnes]

/-- "every mask covers bits 7:0" (R105). -/
theorem opField_of_matches {r : OpcodeRow} (hr : r ∈ opcodeMap) {w : Word} (hm : r.matches w = true) :
    opField w = opField r.matchBits :=
  have hmask : ∀ q ∈ opcodeMap, q.mask.extractLsb' 0 8 = BitVec.allOnes 8 := by decide
  r.field_of_matches hm (hmask r hr)

/-- "the OP values are distinct" (R105). -/
theorem opcodeMap_ops_distinct : opcodeMap.Pairwise (fun r q => opField r.matchBits ≠ opField q.matchBits) := by
  decide

theorem opcodeMap_eq_of_mnemonic {r q : OpcodeRow} (hr : r ∈ opcodeMap) (hq : q ∈ opcodeMap)
    (h : r.mnemonic = q.mnemonic) : r = q :=
  have hnodup : (opcodeMap.map OpcodeRow.mnemonic).Nodup := by decide
  List.inj_on_of_nodup_map hnodup hr hq h

/-- A row's match bits are themselves a word of the row's command. -/
theorem decode_matchBits : ∀ r ∈ opcodeMap, ∃ i, decode r.matchBits = .ok i ∧ i.mnemonic = r.mnemonic := by
  have hmap : ∀ r ∈ opcodeMap, (decode r.matchBits).toOption.map Instr.mnemonic = some r.mnemonic := by decide
  intro r hr
  have hrow := hmap r hr
  cases hdec : decode r.matchBits with
  | ok i => exact ⟨i, rfl, by simpa [hdec, Except.toOption] using hrow⟩
  | error e => simp [hdec, Except.toOption] at hrow

/-- A word that matches a row decodes to the row's command. CFG and SETLEN are the rows whose masks leave bits free. -/
theorem decode_of_matches {r : OpcodeRow} (hr : r ∈ opcodeMap) {w : Word} (hm : r.matches w = true) :
    ∃ i, decode w = .ok i ∧ i.mnemonic = r.mnemonic := by
  have hrows : ∀ q ∈ opcodeMap, q.mask.extractLsb' 0 32 = BitVec.allOnes 32 ∨
      q = ⟨"CFG", 0x00000001#32, 0xFF0000FF#32⟩ ∨ q = ⟨"SETLEN", 0x00000022#32, 0xFFFF00FF#32⟩ := by decide
  have hop := opField_of_matches hr hm
  rcases hrows r hr with hfull | rfl | rfl
  · have hw := r.field_of_matches hm hfull
    simp only [BitVec.extractLsb'_eq_self] at hw
    exact hw ▸ decode_matchBits r hr
  · have hzero : w.extractLsb' 24 8 = 0#8 := OpcodeRow.field_of_matches hm (by decide)
    exact ⟨cfgOfWord w, by rw [decode_of_op_cfg hop, if_pos hzero], rfl⟩
  · have hzero : w.extractLsb' 16 16 = 0#16 := OpcodeRow.field_of_matches hm (by decide)
    exact ⟨.setlen (w.extractLsb' 8 8), by rw [decode_of_op_setlen hop, if_pos hzero], rfl⟩

/-- A word that decodes to a row's command matches the row: it is that command's word. -/
theorem matches_of_decode {r : OpcodeRow} (hr : r ∈ opcodeMap) {w : Word} {i : Instr} (h : decode w = .ok i)
    (hmn : i.mnemonic = r.mnemonic) : r.matches w = true := by
  obtain ⟨q, hq, hqmn, hqm⟩ := encodesToItsRow i
  obtain rfl := opcodeMap_eq_of_mnemonic hq hr (hqmn.trans hmn)
  rwa [(encodeOfDecodeIsTheWord w i h).2] at hqm

/-- Settles O3: one lemma for each direction, and the spec's own reason why the rows exclude each other. -/
theorem decoderFollowsTheOpcodeMap : Obligations.DecoderFollowsTheOpcodeMap := by
  refine ⟨fun r hr w => ⟨decode_of_matches hr, fun ⟨_, hi, hmn⟩ => matches_of_decode hr hi hmn⟩, ?_⟩
  refine opcodeMap_ops_distinct.imp_of_mem (fun hr hq hne w hboth => hne ?_)
  exact (opField_of_matches hr hboth.1).symm.trans (opField_of_matches hq hboth.2)

/-! ### Illegal words (R106) -/

theorem decode_error_iff (w : Word) : (∃ e, decode w = .error e) ↔ illegalWord w := by
  unfold illegalWord
  rw [← opField]
  rcases op_cases (opField w) with hop | hop | ⟨j, hj⟩ | ⟨hcfg, hsetlen, hf0⟩
  · rw [decode_of_op_cfg hop]
    split_ifs with hzero <;> simp [hop, hzero, opsF0]
  · rw [decode_of_op_setlen hop]
    split_ifs with hzero <;> simp [hop, hzero, opsF0]
  · obtain ⟨hcfg, hsetlen⟩ := ne_of_f0Command hj
    rw [decode_of_f0Command hj]
    split_ifs with hzero <;> simp [mem_opsF0_of_f0Command hj, hcfg, hsetlen, hzero]
  · rw [decode_of_unassigned hcfg hsetlen hf0]
    simp [hcfg, hsetlen, hf0]

theorem execWord_illegal {w : Word} (h : illegalWord w) (s : State) :
    ∃ t, execWord w s = .next t ∧ failed s .illegal 0#16 t := by
  obtain ⟨e, he⟩ := (decode_error_iff w).2 h
  exact ⟨_, execWord_of_decode_error he s, by simp [failed, State.report]⟩

/-- Among the 256 bytes, those outside a list without repetition are as many as it leaves over. -/
theorem length_bytes_not_mem {ops : List Byte} (hops : ops.Nodup) :
    ((List.range 256).filter (fun x => decide (BitVec.ofNat 8 x ∉ ops))).length = 256 - ops.length := by
  have hperm : ((List.range 256).filter (fun x => decide (BitVec.ofNat 8 x ∈ ops))).Perm (ops.map BitVec.toNat) := by
    refine (List.perm_ext_iff_of_nodup (List.nodup_range.filter _)
      (hops.map (fun _ _ => BitVec.eq_of_toNat_eq))).2 (fun x => ?_)
    simp only [List.mem_filter, List.mem_range, List.mem_map, decide_eq_true_eq]
    constructor
    · rintro ⟨hx, hmem⟩
      exact ⟨_, hmem, Nat.mod_eq_of_lt hx⟩
    · rintro ⟨op, hop, rfl⟩
      exact ⟨op.isLt, by simpa using hop⟩
  have hsplit := List.length_eq_length_filter_add (l := List.range 256) (fun x => decide (BitVec.ofNat 8 x ∈ ops))
  simp only [List.length_range, hperm.length_eq, List.length_map, ← decide_not] at hsplit
  omega

/-- Settles O4: the two cases of R106, the engine on an illegal word, and the count of the OP values left over. -/
theorem illegalWordsFailWithEIllegal : Obligations.IllegalWordsFailWithEIllegal :=
  fun w s => ⟨decode_error_iff w, fun h => execWord_illegal h s, length_bytes_not_mem (by decide)⟩

/-! ### The spec's own words -/

/-- Settles O5, by running the decoder on each word. -/
theorem specWordsDecode : Obligations.SpecWordsDecode := by
  unfold Obligations.SpecWordsDecode
  decide

end Sys2Proof
end

section
/-! PROOFS. The codec family (40_codec.md): how its commands end and move
bytes, and what CFG, PRESET32 and XFER do. -/

namespace Sys2Proof.Machine
open Sys2Proof.Spec

/-! ### How a command ends -/

theorem succeeded_report (u : State) : succeeded u (u.report .ok 0#16) := by
  simp [succeeded, State.report]

theorem failed_report (u : State) {e : ErrCode} (he : e ≠ .ok) (info : BitVec 16) :
    failed u e info (u.report e info) := by
  simp [failed, State.report, he]

/-- `w` is the only legal word with its OP if it is the format F0 word of that OP (R102, R106). -/
theorem onlyWord_wordF0 {op : Byte} {i : Instr} (h : f0Command op = some i) : onlyWord i (wordF0 op) := by
  refine ⟨decode_wordF0 h, fun v hv hne => ?_⟩
  have hop : opField v = op := hv.trans (opField_wordF0 op)
  have hreserved : v.extractLsb' 8 24 ≠ 0#24 := fun h0 => hne (by rw [← hop, wordF0_opField h0])
  exact ⟨_, by rw [decode_of_f0Command (hop ▸ h), if_neg hreserved]⟩

/-! ### Buffers read and written -/

/-- Byte `i` of a buffer as a command reads it. -/
theorem State.readBuf_getElem? (s : State) (pass : Nat) (b : Buffer) {k i : Nat} (h : i < k) :
    (s.readBuf pass b k)[i]? = some (bufByte s pass b i) := by
  simp [State.readBuf, bufByte, h]

theorem State.readBuf_getElem?_eq_some_iff (s : State) (pass : Nat) (b : Buffer) (k i : Nat) (c : Byte) :
    (s.readBuf pass b k)[i]? = some c ↔ i < k ∧ bufByte s pass b i = c := by
  by_cases hi : i < k
  · simp only [State.readBuf_getElem? _ _ _ hi, Option.some.injEq, hi, true_and]
  · simp [hi]

/-- A buffer read back after a write to it, in any pass. -/
theorem State.readBuf_of_mem_eq {s : State} {m : Memory} {b : Buffer} {bs : List Byte}
    (hmem : s.mem = m.writeBytes b.base bs) (pass : Nat) {k : Nat} (hk : k ≤ bs.length) :
    s.readBuf pass b k = bs.take k := by
  refine List.ext_getElem? (fun i => ?_)
  by_cases hi : i < k
  · have hbyte : s.mem.byteAt (b.base + i) = some bs[i] := by
      rw [hmem, Memory.byteAt_writeBytes_inside _ _ _ _ (by omega), List.getElem?_eq_getElem (by omega)]
    rw [State.readBuf_getElem? _ _ _ hi, bufByte, s.storage_of_written pass hbyte, List.getElem?_take_of_lt hi,
      List.getElem?_eq_getElem (by omega)]
  · rw [List.getElem?_eq_none (by simpa using hi), List.getElem?_eq_none (by simp; omega)]

theorem State.toNat_putOutput_outLen (s : State) {bs : List Byte} (hfit : bs.length ≤ s.outCap) :
    (s.putOutput bs).outLen.toNat = bs.length := by
  have hcap : s.outCap ≤ 4096 := s.params.outCap.2.2
  rw [State.putOutput_outLen, BitVec.toNat_ofNat]
  omega

theorem State.toNat_putInput_inLen (s : State) {bs : List Byte} (hfit : bs.length ≤ s.inCap) :
    (s.putInput bs).inLen.toNat = bs.length := by
  have hcap : s.inCap ≤ 4096 := s.params.inCap.2.2
  rw [State.putInput_inLen, BitVec.toNat_ofNat]
  omega

/-- What is seen of a command that completes with the output `bs`: OUT_LEN, the bytes of OUT_BUF, and the frame. -/
theorem output_of_exec {i : Instr} {s : State} {bs : List Byte} (hfit : bs.length ≤ s.outCap)
    (h : exec i s = .next ((s.putOutput bs).report .ok 0#16)) :
    ∃ t, exec i s = .next t ∧ t.outLen.toNat = bs.length ∧ succeeded { s with mem := t.mem, outLen := t.outLen } t ∧
      (∀ j, j < bs.length → t.mem.byteAt (0x2000 + j) = bs[j]?) ∧
      (∀ a, (a < 0x2000 ∨ 0x2000 + bs.length ≤ a) → t.mem.byteAt a = s.mem.byteAt a) :=
  ⟨_, h, s.toNat_putOutput_outLen hfit, succeeded_report _,
    fun j hj => Memory.byteAt_writeBytes_inside bs s.mem 0x2000 j hj,
    fun a ha => Memory.byteAt_writeBytes_outside bs s.mem 0x2000 a ha⟩

/-! ### The case fold and the block length -/

/-- Settles O24: a lower case letter has room to lose 0x20. -/
theorem foldMapsLowerCaseLettersAlone : Obligations.FoldMapsLowerCaseLettersAlone := by
  refine fun c => ⟨fun hlower => ?_, fun hother => if_neg hother⟩
  rw [fold, if_pos hlower, BitVec.toNat_sub_of_le (BitVec.le_def.2 (Nat.le_trans (by decide) hlower.1))]
  rfl

theorem blockLen_eq_blockLength {n : Nat} (hn : 0 < n) : blockLen n = blockLength n := by
  rw [blockLen, blockLength, Nat.lcm, Nat.div_right_comm, Nat.mul_div_cancel _ hn]

/-- Settles O29: `lcm(8, n) / n` is `8 / gcd(8, n)`. -/
theorem blockLengthsAreTheSpecs : Obligations.BlockLengthsAreTheSpecs :=
  ⟨fun _ hn _ => blockLen_eq_blockLength hn, by decide⟩

/-! ### CFG (R133, R134) -/

section Cfg
variable {n : Nat} {ci rp pg pe : Bool} {pad : Byte} {s : State}

theorem readBuf_map_charKey (s : State) (ci : Bool) (k : Nat) :
    (s.readBuf 0 .alpha k).map (charKey ci) = (List.range k).map (fun v => key ci (bufByte s 0 .alpha v)) := by
  rw [State.readBuf, List.map_map]
  rfl

/-- The symbols staged in ALPHA are distinct under the case rule: R134's check 4. -/
theorem nodup_staged_iff (s : State) (ci : Bool) (k : Nat) :
    ((s.readBuf 0 .alpha k).map (charKey ci)).Nodup ↔
      ∀ v u, v < k → u < k → v ≠ u → key ci (bufByte s 0 .alpha v) ≠ key ci (bufByte s 0 .alpha u) := by
  rw [readBuf_map_charKey, List.nodup_map_iff_inj_on List.nodup_range]
  simp only [List.mem_range]
  exact ⟨fun h v u hv hu hne heq => hne (h v hv u hu heq),
    fun h v hv u hu heq => by_contra fun hne => h v u hv hu hne heq⟩

/-- The pad character is no symbol staged in ALPHA: R134's check 5. -/
theorem pad_not_staged_iff (s : State) (ci : Bool) (pad : Byte) (k : Nat) :
    charKey ci pad ∉ (s.readBuf 0 .alpha k).map (charKey ci) ↔
      ∀ v, v < k → key ci pad ≠ key ci (bufByte s 0 .alpha v) := by
  have hkey : charKey ci pad = key ci pad := rfl
  simp [readBuf_map_charKey, hkey, eq_comm]

/-- The checks of R134 after the first, in their order. -/
theorem cfgCheck_of_width (hwidth : 1 ≤ n ∧ n ≤ 8) (alphaLen : Nat) (alpha : List Byte) :
    cfgCheck n ci pg pe pad alphaLen alpha =
      if alphaLen ≠ 2 ^ n then some .cfgAlen
      else if pg = true ∧ pe = false then some .cfgPad
      else if ¬ (alpha.map (charKey ci)).Nodup then some .cfgDup
      else if pe = true ∧ charKey ci pad ∈ alpha.map (charKey ci) then some .cfgPad
      else none := by
  rw [cfgCheck, if_neg (not_not.2 hwidth)]
  simp only [Bool.and_eq_true, Bool.not_eq_true', List.contains_iff_mem]

theorem exec_cfg_of_check_fails {e : ErrCode} (he : e ≠ .ok)
    (hcheck : cfgCheck n ci pg pe pad s.alphaLen.toNat (s.readBuf 0 .alpha (2 ^ n)) = some e) :
    ∃ t, exec (.cfg n ci rp pg pe pad) s = .next t ∧ failed { s with cfg := CfgReg.cleared } e 0#16 t := by
  refine ⟨s.clearCfg.report e 0#16, ?_, failed_report _ he _⟩
  rcases execCfg_cases n ci rp pg pe pad s with ⟨e', he', h⟩ | ⟨hnone, _⟩
  · obtain rfl := Option.some.inj (hcheck.symm.trans he')
    exact h
  · simp [hcheck] at hnone

theorem exec_cfg_of_check_passes
    (hcheck : cfgCheck n ci pg pe pad s.alphaLen.toNat (s.readBuf 0 .alpha (2 ^ n)) = none) :
    exec (.cfg n ci rp pg pe pad) s = .next ((s.latchCodec
      { n := BitVec.ofNat 4 n, ci := ci, rp := rp, pg := pg, pe := pe, pad := pad, valid := true }
      (s.readBuf 0 .alpha (2 ^ n))).report .ok 0#16) := by
  rcases execCfg_cases n ci rp pg pe pad s with ⟨e, he, _⟩ | ⟨_, h⟩
  · simp [hcheck] at he
  · exact h

end Cfg

/-- Settles O25: each check of R134 in its turn, those before it passed. -/
theorem cfgReportsTheFirstFailingCheck : Obligations.CfgReportsTheFirstFailingCheck := by
  intro n ci rp pg pe pad s a width length padded distinct padFree fails
  have hdistinct := nodup_staged_iff s ci (2 ^ n)
  have hpadFree := pad_not_staged_iff s ci pad (2 ^ n)
  refine ⟨fun hw => ?_, fun hw hl => ?_, fun hw hl hp => ?_, fun hw hl hp hd => ?_, fun hw hl hp hd hf => ?_⟩
  · exact exec_cfg_of_check_fails (by decide) (if_pos hw)
  · exact exec_cfg_of_check_fails (by decide) (by rw [cfgCheck_of_width hw, if_pos hl])
  · exact exec_cfg_of_check_fails (by decide)
      (by rw [cfgCheck_of_width hw, if_neg (not_not.2 hl), if_pos (not_not.1 hp)])
  · exact exec_cfg_of_check_fails (by decide)
      (by rw [cfgCheck_of_width hw, if_neg (not_not.2 hl), if_neg hp, if_pos (mt hdistinct.1 hd)])
  · obtain ⟨hpe, hpad⟩ := Classical.not_imp.1 hf
    exact exec_cfg_of_check_fails (by decide)
      (by rw [cfgCheck_of_width hw, if_neg (not_not.2 hl), if_neg hp, if_neg (not_not.2 (hdistinct.2 hd)),
        if_pos ⟨hpe, not_not.1 (mt hpadFree.1 hpad)⟩])

/-- Settles O26: every check passes, so the staged symbols are latched from entry 0 on. -/
theorem cfgLatchesTheCodec : Obligations.CfgLatchesTheCodec := by
  intro n ci rp pg pe pad s hwidth hlength hpadded hdistinct hpadFree
  have hcheck : cfgCheck n ci pg pe pad s.alphaLen.toNat (s.readBuf 0 .alpha (2 ^ n)) = none := by
    rw [cfgCheck_of_width hwidth, if_neg (not_not.2 hlength), if_neg hpadded,
      if_neg (not_not.2 ((nodup_staged_iff ..).2 hdistinct)),
      if_neg (fun h => (pad_not_staged_iff ..).2 (hpadFree h.1) h.2)]
  refine ⟨_, exec_cfg_of_check_passes hcheck, ?_, succeeded_report _, fun v hv => ?_, fun v hv => ?_⟩
  · rw [State.report_cfg, State.latchCodec_cfg, BitVec.toNat_ofNat]
    omega
  · have hin := s.activeAlpha.byteAt_writeBytes_inside (s.readBuf 0 .alpha (2 ^ n)) 0 v (by simpa using hv)
    rwa [Nat.zero_add, State.readBuf_getElem? _ _ _ hv] at hin
  · exact Memory.byteAt_writeBytes_outside _ s.activeAlpha 0 v (.inr (by simpa using hv))

/-- `fold` takes no byte to 'a', so 256 bytes cannot be distinct under it (R133). -/
theorem not_nodup_map_fold {cs : List Byte} (hlen : cs.length = 256) : ¬ (cs.map fold).Nodup := by
  intro hnodup
  have hfold : ∀ c : Byte, fold c ≠ 0x61#8 := by decide
  have hmissing : 0x61#8 ∉ cs.map fold := by simpa using fun c _ => hfold c
  have hcard := (List.nodup_cons.2 ⟨hmissing, hnodup⟩).length_le_card
  rw [← FinEnum.card_eq_fintypeCard, FinEnum.card_bitVec] at hcard
  simp [hlen] at hcard

/-- Settles O27: with 8-bit symbols and CI = 1, check 4 of R134 cannot pass. -/
theorem caseInsensitiveByteCodecIsNeverAccepted : Obligations.CaseInsensitiveByteCodecIsNeverAccepted := by
  intro rp pg pe pad s
  refine exec_cfg_of_check_fails (by split_ifs <;> decide) ?_
  have hdup : ¬ ((s.readBuf 0 .alpha (2 ^ 8)).map (charKey true)).Nodup := not_nodup_map_fold (s.readBuf_length ..)
  rw [cfgCheck_of_width (by decide), if_pos hdup, apply_ite some, apply_ite some]
  rfl

/-! ### PRESET32 (R135) -/

theorem presetCfg_regRead {s : State} (h : s.cfg = presetCfg) : s.regRead .cfg = 0x00013DB5#32 := by
  rw [State.regRead, h]
  decide

/-- Settles O28: the latched table is the alphabet of R135, and the checks of R134 hold for it. -/
theorem preset32LatchesBase32 : Obligations.Preset32LatchesBase32 := by
  have halphabet : ∀ v, v < 32 →
      base32Alphabet[v]? = some (BitVec.ofNat 8 (if v < 26 then 0x41 + v else 0x32 + (v - 26))) := by decide
  refine ⟨onlyWord_wordF0 (op := 0x02#8) rfl, fun s => ⟨(s.latchCodec presetCfg base32Alphabet).report .ok 0#16, rfl,
    presetCfg_regRead rfl, succeeded_report _, fun v hv => ?_, fun v hv => ?_, cfgInv_latch rfl validCodec_preset _⟩⟩
  · have hin := s.activeAlpha.byteAt_writeBytes_inside base32Alphabet 0 v hv
    rwa [Nat.zero_add, halphabet v hv] at hin
  · exact Memory.byteAt_writeBytes_outside _ s.activeAlpha 0 v (.inr hv)

/-! ### XFER (R157) -/

theorem exec_xfer_completes {s : State} (hfits : s.outLen.toNat ≤ s.inCap) :
    exec .xfer s = .next ((s.putInput (s.readBuf 0 .outBuf s.outLen.toNat)).report .ok 0#16) := by
  rcases execXfer_cases s with ⟨hlong, _⟩ | ⟨_, h⟩
  · omega
  · exact h

/-- Settles O36: the bytes read from OUT_BUF are those written to IN_BUF. -/
theorem xferCopiesTheOutput : Obligations.XferCopiesTheOutput := by
  refine ⟨onlyWord_wordF0 (op := 0x12#8) rfl, fun s => ⟨fun hlong => ?_, fun hfits => ?_⟩⟩
  · exact ⟨_, if_pos hlong, failed_report s (by decide) _⟩
  · have hlen : (s.readBuf 0 .outBuf s.outLen.toNat).length = s.outLen.toNat := s.readBuf_length ..
    refine ⟨_, exec_xfer_completes hfits, ?_, fun i hi => ?_, fun a ha => ?_⟩
    · simp [succeeded, State.report, State.putInput]
    · rw [← State.readBuf_getElem? _ _ _ hi]
      exact Memory.byteAt_writeBytes_inside _ s.mem 0x1000 i (by omega)
    · exact Memory.byteAt_writeBytes_outside _ s.mem 0x1000 a (by omega)

end Sys2Proof.Machine
end

section
/-! PROOFS. The codec family (40_codec.md), ENC and DEC: the valid configuration they read, the bit streams between
bytes and symbols, and what the two commands write. -/

namespace Sys2Proof.Machine
open Sys2Proof.Spec

/-! ### The latched configuration -/

/-- What ENC and DEC use of a valid configuration (R28): a symbol width from 1 to 8, written symbols with distinct keys,
a pad character that is no symbol, and none missing for group padding. -/
structure State.Configured (s : State) : Prop where
  width_pos : 0 < s.cfg.n.toNat
  width_le : s.cfg.n.toNat ≤ 8
  symbol_written : ∀ v, v < 2 ^ s.cfg.n.toNat → s.activeAlpha.byteAt v = some (s.symbol v)
  key_injective : ∀ v u, v < 2 ^ s.cfg.n.toNat → u < 2 ^ s.cfg.n.toNat →
    charKey s.cfg.ci (s.symbol v) = charKey s.cfg.ci (s.symbol u) → v = u
  pad_ne_symbol : s.cfg.pe = true → ∀ v, v < 2 ^ s.cfg.n.toNat → s.symbol v ≠ s.cfg.pad
  pe_of_pg : s.cfg.pg = true → s.cfg.pe = true

theorem State.symbol_of_written {s : State} {v : Nat} {b : Byte} (h : s.activeAlpha.byteAt v = some b) :
    s.symbol v = b := by
  simp [State.symbol, h]

theorem State.configured_of_cfgInv {s : State} (hinv : cfgInv s.cfg s.activeAlpha) (hvalid : s.cfg.valid = true) :
    s.Configured := by
  obtain ⟨syms, ⟨hpos, hle, hlen, hnodup, hpe, hpad⟩, htable⟩ := hinv.1 hvalid
  have hwritten : ∀ v, v < 2 ^ s.cfg.n.toNat → ∃ h : v < syms.length, s.activeAlpha.byteAt v = some syms[v] :=
    fun v hv => ⟨hlen ▸ hv, by rw [htable v hv, List.getElem?_eq_getElem]⟩
  have hsymbol : ∀ v, v < 2 ^ s.cfg.n.toNat → ∃ h : v < syms.length, s.symbol v = syms[v] :=
    fun v hv => ⟨hlen ▸ hv, State.symbol_of_written (hwritten v hv).2⟩
  refine ⟨hpos, hle, fun v hv => ?_, fun v u hv hu hkey => ?_, fun hpe' v hv heq => hpad hpe' ?_, hpe⟩
  · rw [(hwritten v hv).2, (hsymbol v hv).2]
  · obtain ⟨hv', hsv⟩ := hsymbol v hv
    obtain ⟨hu', hsu⟩ := hsymbol u hu
    rw [hsv, hsu] at hkey
    exact (hnodup.getElem_inj_iff (hi := by simpa using hv') (hj := by simpa using hu')).1 (by simpa using hkey)
  · obtain ⟨hv', hsv⟩ := hsymbol v hv
    exact List.mem_map.2 ⟨syms[v], List.getElem_mem hv', by rw [← hsv, heq]⟩

/-- A configured symbol reads the same in every state with the same table: it is written. -/
theorem State.Configured.symbol_congr {s t : State} (hs : s.Configured) (h : t.activeAlpha = s.activeAlpha) {v : Nat}
    (hv : v < 2 ^ s.cfg.n.toNat) : t.symbol v = s.symbol v :=
  State.symbol_of_written (h ▸ hs.symbol_written v hv)

/-- DEC finds exactly the value of a symbol, whatever byte denotes it (R132, R152). -/
theorem State.Configured.symbolValue_eq {s : State} (hs : s.Configured) {c : Byte} {v : Nat}
    (hv : v < 2 ^ s.cfg.n.toNat) (hc : charKey s.cfg.ci c = charKey s.cfg.ci (s.symbol v)) :
    symbolValue s.cfg.n.toNat s.cfg.ci s.symbol c = some v := by
  cases h : symbolValue s.cfg.n.toNat s.cfg.ci s.symbol c with
  | none => exact absurd hc (symbolValue_eq_none.1 h v hv)
  | some u =>
    obtain ⟨hu, hcu⟩ := symbolValue_eq_some h
    rw [hs.key_injective u v hu hv (hcu.symm.trans hc)]

/-! ### Lengths (R136, R138) -/

/-- A length with the pads that follow it is the length rounded up to whole blocks. -/
theorem add_padding_eq_mul_div {B : Nat} (hB : 0 < B) (len : Nat) :
    len + (B - len % B) % B = B * ((len + B - 1) / B) := by
  have hpred : B - 1 < B := by omega
  have hmod := Nat.mod_lt len hB
  have hdiv := Nat.div_add_mod len B
  rw [Nat.add_sub_assoc hB, Nat.add_div hB, Nat.div_eq_of_lt hpred, Nat.add_zero,
    Nat.mod_eq_of_lt hpred]
  rcases Nat.eq_zero_or_pos (len % B) with hzero | hpos
  · rw [hzero, Nat.sub_zero, Nat.mod_self, if_neg (by omega), Nat.add_zero, Nat.add_zero]
    omega
  · rw [Nat.mod_eq_of_lt (show B - len % B < B by omega), if_pos (by omega), mul_add]
    omega

theorem blockLen_pos {n : Nat} : 0 < blockLen n :=
  Nat.div_pos (Nat.le_of_dvd (by decide) (Nat.gcd_dvd_left 8 n)) (Nat.gcd_pos_of_pos_left n (by decide))

theorem encValues_length_eq_bodyLength (n : Nat) (rp : Bool) (bs : List Byte) :
    (encValues n rp bs).length = bodyLength n bs.length rp := by
  simp only [encValues_length, bodyLength, and_comm]

/-- The symbol values ENC makes of its input (R137, R139). -/
def State.encBody (s : State) : List Nat :=
  encValues s.cfg.n.toNat s.cfg.rp (s.readBuf 0 .inBuf s.inLen.toNat)

theorem State.encBody_length (s : State) : s.encBody.length = bodyLength s.cfg.n.toNat s.inLen.toNat s.cfg.rp := by
  rw [State.encBody, encValues_length_eq_bodyLength, State.readBuf_length]

/-- The output of ENC: the symbols of the body, then the pads (R140). -/
theorem State.encOutput_eq_append (s : State) :
    s.encOutput = s.encBody.map s.symbol ++
      List.replicate (if s.cfg.pg then padCount s.cfg.n.toNat s.encBody.length else 0) s.cfg.pad := by
  unfold State.encOutput State.encBody encString
  cases s.cfg.pg <;> simp

theorem State.encBody_length_le (s : State) : s.encBody.length ≤ s.encOutput.length := by
  simp [State.encOutput_eq_append]

theorem State.Configured.encOutput_length {s : State} (hs : s.Configured) :
    s.encOutput.length = encodedLength s.cfg.n.toNat s.inLen.toNat s.cfg.rp s.cfg.pg := by
  rw [encodedLength, ← blockLen_eq_blockLength hs.width_pos, ← add_padding_eq_mul_div blockLen_pos, ← s.encBody_length,
    State.encOutput_eq_append, List.length_append, List.length_map, List.length_replicate]
  cases s.cfg.pg <;> rfl

/-! ### The symbols of the input (R137 to R140) -/

theorem State.encOutput_getElem?_body {s : State} {i v : Nat} (h : s.encBody[i]? = some v) :
    s.encOutput[i]? = some (s.symbol v) := by
  obtain ⟨hi, _⟩ := List.getElem?_eq_some_iff.1 h
  rw [State.encOutput_eq_append, List.getElem?_append_left (by simpa using hi), List.getElem?_map, h, Option.map_some]

theorem State.encOutput_getElem?_pad {s : State} {i : Nat} (hbody : s.encBody.length ≤ i)
    (hi : i < s.encOutput.length) : s.encOutput[i]? = some s.cfg.pad := by
  rw [State.encOutput_eq_append, List.length_append, List.length_map, List.length_replicate] at hi
  rw [State.encOutput_eq_append, List.getElem?_append_right (by simpa using hbody), List.getElem?_replicate,
    List.length_map, if_pos (by omega)]

theorem encValues_getElem?_whole (n : Nat) (rp : Bool) (bs : List Byte) {i : Nat} (hi : i < 8 * bs.length / n) :
    (encValues n rp bs)[i]? = some (group (byteBits bs) (i * n) n) := by
  simp [encValues, List.getElem?_append_left, hi]

theorem encValues_getElem?_partial {n : Nat} {bs : List Byte} (hr : 8 * bs.length % n ≠ 0) :
    (encValues n true bs)[8 * bs.length / n]? = some (group (byteBits bs) (8 * bs.length / n * n)
      (8 * bs.length % n) * 2 ^ (n - 8 * bs.length % n)) := by
  simp [encValues, hr]

/-- A group of the model's bit stream is the spec's (R11, R12). -/
theorem group_readBuf (s : State) {k p w : Nat} (h : p + w ≤ 8 * k) :
    group (byteBits (s.readBuf 0 .inBuf k)) p w = streamGroup (bufByte s 0 .inBuf) p w := by
  rw [group_eq_sum _ _ _ (fun b => (bufByte s 0 .inBuf ((p + b) / 8)).toNat.testBit (7 - (p + b) % 8)) (fun b hb => ?_)]
  · simp only [streamGroup, streamBit, Nat.toNat_testBit, Nat.shiftRight_eq_div_pow]
  · rw [byteBits_getElem?, State.readBuf_getElem? _ _ _ (by omega), Option.map_some]

/-! ### ENC (R137, R142) -/

theorem exec_enc_eq (s : State) :
    exec .enc s = if s.cfg.valid = false then fail .noCfg 0#16 s
      else if s.inLen.toNat > s.inCap then fail .len 0#16 s
      else if s.encOutput.length > s.outCap then fail .ovf 0#16 s
      else succeed (s.putOutput s.encOutput) := rfl

/-- An ENC that reports no error had a configuration, an input and an output that fit, and wrote the output. -/
theorem exec_enc_ok {s t : State} (h : exec .enc s = .next t) (hok : t.errCode = .ok) :
    s.cfg.valid = true ∧ s.inLen.toNat ≤ s.inCap ∧ s.encOutput.length ≤ s.outCap ∧
      t = (s.putOutput s.encOutput).report .ok 0#16 := by
  rcases execEnc_cases s with ⟨_, he⟩ | ⟨_, _, he⟩ | ⟨_, _, _, he⟩ | ⟨hvalid, hin, hout, he⟩ <;>
    obtain rfl := Host.Outcome.next.inj (he.symm.trans h)
  · cases hok
  · cases hok
  · cases hok
  · exact ⟨hvalid, hin, hout, rfl⟩

/-- Settles O30: the branches of ENC, the length of its output written as the spec's formula. -/
theorem encFailsInThisOrder : Obligations.EncFailsInThisOrder := by
  refine fun s hinv => ⟨fun hvalid => ?_, fun hvalid hlen => ?_, fun hvalid hlen hlong => ?_⟩
  · exact ⟨_, by rw [exec_enc_eq, if_pos hvalid]; rfl, failed_report s (by decide) _⟩
  · exact ⟨_, by rw [exec_enc_eq, if_neg (by simp [hvalid]), if_pos hlen]; rfl, failed_report s (by decide) _⟩
  · rw [← (State.configured_of_cfgInv hinv hvalid).encOutput_length] at hlong
    exact ⟨_, by rw [exec_enc_eq, if_neg (by simp [hvalid]), if_neg (by omega), if_pos hlong]; rfl,
      failed_report s (by decide) _⟩

/-- Settles O31: OUT_BUF holds the output string, and each of its symbols is the one of its group. -/
theorem encWritesTheSymbolString : Obligations.EncWritesTheSymbolString := by
  intro s hinv hvalid hin n k B whole r body len hout
  have hconf := State.configured_of_cfgInv hinv hvalid
  have hlen : s.encOutput.length = len := hconf.encOutput_length
  have hexec : exec .enc s = .next ((s.putOutput s.encOutput).report .ok 0#16) := by
    rw [exec_enc_eq, if_neg (by simp [hvalid]), if_neg (by omega), if_neg (by omega)]
    rfl
  obtain ⟨t, ht, houtLen, hsucc, hbytes, hframe⟩ := output_of_exec (hlen ▸ hout) hexec
  rw [hlen] at houtLen hbytes hframe
  have hk : (s.readBuf 0 .inBuf k).length = k := s.readBuf_length ..
  have hbody : s.encBody.length = body := s.encBody_length
  have hsymbol : ∀ i v, s.encBody[i]? = some v → t.mem.byteAt (0x2000 + i) = some (s.symbol v) := by
    intro i v hv
    obtain ⟨hi, _⟩ := List.getElem?_eq_some_iff.1 hv
    rw [hbytes i (hlen ▸ hi.trans_le s.encBody_length_le), State.encOutput_getElem?_body hv]
  refine ⟨t, ht, houtLen, hsucc, fun i hi => ?_, fun hr hrp => ?_, fun i hi hi' => ?_, hframe⟩
  · have hgroup : i * n + n ≤ 8 * k :=
      (Nat.succ_mul i n).symm.trans_le ((Nat.mul_le_mul_right n hi).trans (Nat.div_mul_le_self ..))
    rw [← group_readBuf s hgroup]
    exact hsymbol i _ (encValues_getElem?_whole _ _ _ (hk.symm ▸ hi))
  · have hgroup : whole * n + r ≤ 8 * k := (Nat.div_add_mod' ..).le
    have hpartial := encValues_getElem?_partial (n := n) (bs := s.readBuf 0 .inBuf k) (hk.symm ▸ hr)
    rw [hk, ← hrp] at hpartial
    rw [← group_readBuf s hgroup]
    exact hsymbol whole _ hpartial
  · rw [hbytes i hi', State.encOutput_getElem?_pad (hbody.symm ▸ hi) (hlen.symm ▸ hi')]

/-- With PRESET32 the output has a symbol for every five bits begun (R138). -/
theorem encodedLength_preset (k : Nat) : encodedLength 5 k true false = (8 * k + 4) / 5 := by
  have hbody : encodedLength 5 k true false = bodyLength 5 k true := rfl
  simp only [hbody, bodyLength, true_and]
  split_ifs <;> omega

/-- Settles O32: OUT_LEN is the length of the output string. -/
theorem encodedLengthIsTheFormula : Obligations.EncodedLengthIsTheFormula := by
  intro s t hinv hexec hok
  obtain ⟨hvalid, _, hfit, rfl⟩ := exec_enc_ok hexec hok
  have hlen : ((s.putOutput s.encOutput).report .ok 0#16).outLen.toNat =
      encodedLength s.cfg.n.toNat s.inLen.toNat s.cfg.rp s.cfg.pg :=
    (s.toNat_putOutput_outLen hfit).trans (State.configured_of_cfgInv hinv hvalid).encOutput_length
  refine ⟨hlen, fun hpreset => ?_⟩
  rw [hlen, hpreset]
  refine ⟨encodedLength_preset _, fun h32 => ?_⟩
  rw [h32]
  exact encodedLength_preset 32

/-! ### The symbols DEC reads (R151, R152) -/

/-- DEC strips as many symbols as the spec says. -/
theorem stripped_decLength (s : State) : stripped s s.decLength := by
  cases hpe : s.cfg.pe with
  | false => simp [stripped, State.decLength, hpe]
  | true =>
    obtain ⟨k, hsplit, hlast⟩ := stripPads_spec s.cfg.pad (s.readBuf 0 .inBuf s.inLen.toNat)
    have hlen : (stripPads true s.cfg.pad (s.readBuf 0 .inBuf s.inLen.toNat)).length = s.decLength := by
      rw [State.decLength, hpe]
    generalize stripPads true s.cfg.pad (s.readBuf 0 .inBuf s.inLen.toNat) = body at hsplit hlast hlen
    have htotal : s.inLen.toNat = s.decLength + k := by
      have := congrArg List.length hsplit
      rwa [List.length_append, List.length_replicate, State.readBuf_length, hlen] at this
    have hbyte : ∀ i, i < s.inLen.toNat → (body ++ List.replicate k s.cfg.pad)[i]? = some (bufByte s 0 .inBuf i) :=
      fun i hi => by rw [← hsplit, State.readBuf_getElem? _ _ _ hi]
    refine ⟨by omega, by simp [hpe], fun _ => ⟨fun i hi hi' => ?_, ?_⟩⟩
    · have hpad := hbyte i hi'
      rw [List.getElem?_append_right (by omega), List.getElem?_replicate, if_pos (by omega)] at hpad
      exact (Option.some.inj hpad).symm
    · refine (Nat.eq_zero_or_pos s.decLength).imp_right (fun hpos => hlast _ ?_)
      rw [List.getLast?_eq_getElem?, ← hbyte _ (by omega), List.getElem?_append_left (by omega), hlen]

theorem stripped_le {s : State} {len len' : Nat} (h : stripped s len) (h' : stripped s len') : len ≤ len' := by
  obtain ⟨hle, hnoPad, hpad⟩ := h
  obtain ⟨_, hnoPad', hpad'⟩ := h'
  cases hpe : s.cfg.pe with
  | false => rw [hnoPad hpe, hnoPad' hpe]
  | true =>
    by_contra hlt
    have hlast := (hpad' hpe).1 (len - 1) (by omega) (by omega)
    exact (hpad hpe).2.elim (by omega) (fun hne => hne hlast)

/-- The number of symbols left of the pads is the spec's, and no other number is. -/
theorem stripped_iff (s : State) (len : Nat) : stripped s len ↔ len = s.decLength :=
  ⟨fun h => Nat.le_antisymm (stripped_le h (stripped_decLength s)) (stripped_le (stripped_decLength s) h),
    fun h => h ▸ stripped_decLength s⟩

theorem denotes_iff (s : State) (v i : Nat) :
    denotes s v i ↔ v < 2 ^ s.cfg.n.toNat ∧
      charKey s.cfg.ci (bufByte s 1 .inBuf i) = charKey s.cfg.ci (s.symbol v) := by
  unfold denotes charKey
  cases s.cfg.ci <;> rfl

/-- The look-up of symbol `i` fails exactly if the symbol denotes no value (R152). -/
theorem symbolValue_eq_none_iff (s : State) (i : Nat) :
    symbolValue s.cfg.n.toNat s.cfg.ci s.symbol (bufByte s 1 .inBuf i) = none ↔ ¬ ∃ v, denotes s v i := by
  simp only [symbolValue_eq_none, denotes_iff, not_exists, not_and, ne_eq]

/-- DEC stops at index `i` exactly if symbol `i` is the first that denotes no value (R152). -/
theorem decValues_eq_error_iff (s : State) (i : Nat) :
    s.decValues = .error i ↔ i < s.decLength ∧ (¬ ∃ v, denotes s v i) ∧ ∀ j, j < i → ∃ v, denotes s v j := by
  rw [State.decValues, symbolValues_eq_error]
  simp only [State.readBuf_getElem?_eq_some_iff, ne_eq]
  constructor
  · rintro ⟨_, _, rfl, ⟨hi, rfl⟩, hnone, hbefore⟩
    rw [Nat.zero_add]
    refine ⟨hi, (symbolValue_eq_none_iff ..).1 hnone, fun j hj => ?_⟩
    exact not_not.1 (mt (symbolValue_eq_none_iff ..).2 (hbefore j _ hj ⟨by omega, rfl⟩))
  · rintro ⟨hi, hnone, hbefore⟩
    refine ⟨i, _, (Nat.zero_add i).symm, ⟨hi, rfl⟩, (symbolValue_eq_none_iff ..).2 hnone, ?_⟩
    rintro j _ hj ⟨_, rfl⟩ hnone'
    exact (symbolValue_eq_none_iff ..).1 hnone' (hbefore j hj)

theorem decValues_length {s : State} {vals : List Nat} (h : s.decValues = .ok vals) : vals.length = s.decLength := by
  rw [symbolValues_length _ _ _ _ h, State.readBuf_length]

/-- DEC finds a value for every symbol if every symbol denotes one. -/
theorem exists_decValues {s : State} (h : ∀ j, j < s.decLength → ∃ v, denotes s v j) :
    ∃ vals, s.decValues = .ok vals := by
  cases hvals : s.decValues with
  | ok vals => exact ⟨vals, rfl⟩
  | error i =>
    obtain ⟨hi, hnone, _⟩ := (decValues_eq_error_iff s i).1 hvals
    exact absurd (h i hi) hnone

/-- In a valid configuration a symbol denotes at most one value, so DEC finds that one (R152). -/
theorem State.Configured.decValues_eq {s : State} (hs : s.Configured) {v : Nat → Nat}
    (h : ∀ i, i < s.decLength → denotes s (v i) i) : s.decValues = .ok ((List.range s.decLength).map v) := by
  rw [State.decValues, symbolValues_eq_ok, State.readBuf, List.map_map, List.map_map]
  refine List.map_congr_left (fun i hi => ?_)
  obtain ⟨hv, hkey⟩ := (denotes_iff s (v i) i).1 (h i (List.mem_range.1 hi))
  exact hs.symbolValue_eq hv hkey

/-! ### The bytes DEC makes of the symbol values (R150, R153) -/

theorem decLen_eq_decodedLength (n len : Nat) : decLen n len = decodedLength n len := rfl

theorem flatMap_bitsOf_length (n : Nat) (vals : List Nat) : (vals.flatMap (bitsOf n)).length = n * vals.length := by
  simp [List.length_flatMap, Nat.mul_comm]

/-- Bit `q` of the values as `n` bits each: bit `q mod n`, from the most significant, of value `q div n`. -/
theorem flatMap_bitsOf_getElem? {n : Nat} (hn : 0 < n) (vals : List Nat) (q : Nat) :
    (vals.flatMap (bitsOf n))[q]? = vals[q / n]?.map (fun v => v.testBit (n - 1 - q % n)) := by
  induction vals generalizing q with
  | nil => simp
  | cons v vals ih =>
    rw [List.flatMap_cons]
    by_cases hq : q < n
    · rw [List.getElem?_append_left (by simpa using hq), bitsOf_getElem? _ _ _ hq, Nat.div_eq_of_lt hq,
        Nat.mod_eq_of_lt hq]
      rfl
    · obtain ⟨p, rfl⟩ : ∃ p, q = p + n := ⟨q - n, by omega⟩
      rw [List.getElem?_append_right (by simp), bitsOf_length, Nat.add_sub_cancel, ih, Nat.add_div_right _ hn,
        Nat.add_mod_right, List.getElem?_cons_succ]

/-- Bit `q` of the stream DEC cuts into bytes, as a bit of the model: what `decodedBit` says in numbers (R150). -/
def streamBool (n len : Nat) (v : Nat → Nat) (q : Nat) : Bool :=
  decide (q < n * len) && (v (q / n)).testBit (n - 1 - q % n)

theorem toNat_streamBool (n len : Nat) (v : Nat → Nat) (q : Nat) :
    (streamBool n len v q).toNat = decodedBit n len v q := by
  unfold decodedBit streamBool
  split
  · next h => simp [h, Nat.toNat_testBit]
  · next h => simp [h]

/-- The values' bits, followed by `z` zeros (R150). -/
theorem decStream_getElem? {n len : Nat} (hn : 0 < n) (v : Nat → Nat) {z q : Nat} (hq : q < n * len + z) :
    (((List.range len).map v).flatMap (bitsOf n) ++ List.replicate z false)[q]? = some (streamBool n len v q) := by
  have htotal : (((List.range len).map v).flatMap (bitsOf n)).length = n * len := by
    rw [flatMap_bitsOf_length, List.length_map, List.length_range]
  unfold streamBool
  by_cases hin : q < n * len
  · have hdiv : q / n < len := Nat.div_lt_of_lt_mul hin
    rw [List.getElem?_append_left (htotal.symm ▸ hin), flatMap_bitsOf_getElem? hn]
    simp [hin, hdiv]
  · rw [List.getElem?_append_right (by omega), List.getElem?_replicate, if_pos (by omega)]
    simp [hin]

/-- A byte of the output of DEC, as the sum of its decoded bits (R150, R153). -/
theorem decBytes_getElem?_eq_sum {n len : Nat} (hn : 0 < n) (v : Nat → Nat) {j : Nat} (hj : j < decLen n len) :
    (decBytes n ((List.range len).map v))[j]? =
      some (BitVec.ofNat 8 (∑ b ∈ Finset.range 8, decodedBit n len v (8 * j + b) * 2 ^ (7 - b))) := by
  have hlen : ((List.range len).map v).length = len := by simp
  rw [decBytes_getElem? _ _ _ (hlen.symm ▸ hj), hlen,
    group_eq_sum _ _ _ (fun b => streamBool n len v (8 * j + b)) (fun b hb => decStream_getElem? hn v (by omega))]
  simp only [toNat_streamBool]

/-! ### DEC (R150, R155) -/

theorem exec_dec_eq_endDec {s : State} (hvalid : s.cfg.valid = true) (hin : s.inLen.toNat ≤ s.inCap) :
    exec .dec s = s.endDec s.decValues := by
  rw [exec, execDec_eq_endDec, if_neg (by simp [hvalid]), if_neg (by omega)]

theorem exec_dec_completes {s : State} {vals : List Nat} (hvalid : s.cfg.valid = true) (hin : s.inLen.toNat ≤ s.inCap)
    (hvals : s.decValues = .ok vals) (hfit : decLen s.cfg.n.toNat vals.length ≤ s.outCap) :
    exec .dec s = .next ((s.putOutput (decBytes s.cfg.n.toNat vals)).report .ok 0#16) := by
  rw [exec_dec_eq_endDec hvalid hin, hvals, State.endDec, if_neg (by omega)]
  rfl

/-- Settles O33: the branches of DEC, the symbols it cannot look up told by the values they denote. -/
theorem decFailsInThisOrder : Obligations.DecFailsInThisOrder := by
  refine fun s => ⟨fun hvalid => ?_, fun hvalid hlen => ?_, fun hvalid hin len i hstripped hi hbefore hnone => ?_,
    fun hvalid hin len hstripped hall hlong => ?_⟩
  · exact ⟨_, by rw [exec, execDec_eq_endDec, if_pos hvalid]; rfl, failed_report s (by decide) _⟩
  · exact ⟨_, by rw [exec, execDec_eq_endDec, if_neg (by simp [hvalid]), if_pos hlen]; rfl,
      failed_report s (by decide) _⟩
  · have hvals := (decValues_eq_error_iff s i).2 ⟨(stripped_iff s len).1 hstripped ▸ hi, hnone, hbefore⟩
    refine ⟨s.report .badSym (BitVec.ofNat 16 i), by rw [exec_dec_eq_endDec hvalid hin, hvals]; rfl, ?_,
      failed_report s (by decide) _⟩
    obtain ⟨hle, _⟩ := hstripped
    rw [State.report_errInfo, BitVec.toNat_ofNat]
    omega
  · obtain rfl := (stripped_iff s len).1 hstripped
    obtain ⟨vals, hvals⟩ := exists_decValues hall
    refine ⟨_, ?_, failed_report s (by decide) _⟩
    rw [exec_dec_eq_endDec hvalid hin, hvals, State.endDec, decValues_length hvals, decLen_eq_decodedLength,
      if_pos hlong]
    rfl

/-- Settles O34: DEC finds the values the symbols denote, and OUT_BUF holds their bits as bytes. -/
theorem decWritesTheBytes : Obligations.DecWritesTheBytes := by
  intro s len v hinv hvalid hin hstripped hdenotes n m hout
  obtain rfl := (stripped_iff s len).1 hstripped
  have hconf := State.configured_of_cfgInv hinv hvalid
  have hlen : ((List.range s.decLength).map v).length = s.decLength := by simp
  have hexec := exec_dec_completes hvalid hin (hconf.decValues_eq hdenotes) (by rwa [hlen])
  have hm : (decBytes n ((List.range s.decLength).map v)).length = m := by rw [decBytes_length, hlen]; rfl
  obtain ⟨t, ht, houtLen, hsucc, hbytes, hframe⟩ := output_of_exec (hm.trans_le hout) hexec
  rw [hm] at houtLen hbytes hframe
  exact ⟨t, ht, houtLen, hsucc,
    fun j hj => (hbytes j hj).trans (decBytes_getElem?_eq_sum hconf.width_pos v hj), hframe⟩

/-- A DEC that reports no error found a value for every symbol, and wrote the bytes. -/
theorem exec_dec_ok {s t : State} (h : exec .dec s = .next t) (hok : t.errCode = .ok) :
    ∃ vals, s.decValues = .ok vals ∧ decLen s.cfg.n.toNat vals.length ≤ s.outCap ∧
      t = (s.putOutput (decBytes s.cfg.n.toNat vals)).report .ok 0#16 := by
  rcases execDec_cases s with ⟨_, he⟩ | ⟨_, _, he⟩ | ⟨_, _, _, _, he⟩ | ⟨_, _, _, _, _, he⟩ |
    ⟨vals, _, _, hvals, hout, he⟩ <;>
    obtain rfl := Host.Outcome.next.inj (he.symm.trans h)
  · cases hok
  · cases hok
  · cases hok
  · cases hok
  · exact ⟨vals, hvals, hout, rfl⟩

theorem decodedLength_eight (len : Nat) : decodedLength 8 len = len := by
  rw [decodedLength, if_neg (by omega)]
  omega

theorem decodedLength_one (len : Nat) : decodedLength 1 len = (len + 7) / 8 := by
  rw [decodedLength]
  split_ifs <;> omega

/-- Settles O35: OUT_LEN is the number of bytes DEC makes of the symbols it has looked up. -/
theorem decodedLengthIsTheFormula : Obligations.DecodedLengthIsTheFormula := by
  intro s t hexec hok
  obtain ⟨vals, hvals, hfit, rfl⟩ := exec_dec_ok hexec hok
  have houtLen : ((s.putOutput (decBytes s.cfg.n.toNat vals)).report .ok 0#16).outLen.toNat =
      decodedLength s.cfg.n.toNat s.decLength := by
    rw [← decBytes_length] at hfit
    rw [State.report_outLen, s.toNat_putOutput_outLen hfit, decBytes_length, decValues_length hvals]
    rfl
  refine ⟨s.decLength, stripped_decLength s, houtLen, fun h8 => ?_, fun h1 => ?_⟩
  · rw [houtLen, h8]
    exact decodedLength_eight _
  · rw [houtLen, h1]
    exact decodedLength_one _

end Sys2Proof.Machine
end

section
/-! PROOFS. The codec family (40_codec.md), the round-trip law (R156): on lists of bytes, DEC's bytes of ENC's values;
then the three commands in a row. -/

namespace Sys2Proof.Machine
open Sys2Proof.Spec

/-! ### Groups of a bit stream -/

/-- Lists of bits of the same length are the same if their values are. -/
theorem bitsValue_injective {xs ys : List Bool} (hlen : xs.length = ys.length) (h : bitsValue xs = bitsValue ys) :
    xs = ys := by
  induction xs generalizing ys with
  | nil => exact (List.length_eq_zero_iff.1 hlen.symm).symm
  | cons x xs ih =>
    cases ys with
    | nil => cases hlen
    | cons y ys =>
      have hlen' : xs.length = ys.length := Nat.succ.inj hlen
      have hx := bitsValue_lt xs
      have hy := bitsValue_lt ys
      rw [bitsValue_cons, bitsValue_cons, ← hlen'] at h
      rw [← hlen'] at hy
      have hhead : x = y := by
        cases x <;> cases y <;> simp at h ⊢ <;> omega
      subst hhead
      rw [ih hlen' (by omega)]

theorem bitsOf_bitsValue (l : List Bool) : bitsOf l.length (bitsValue l) = l :=
  bitsValue_injective (bitsOf_length ..) (by rw [bitsValue_bitsOf, Nat.mod_eq_of_lt (bitsValue_lt l)])

/-- The bits of a group are the bits of the stream it was taken from. -/
theorem bitsOf_group {l : List Bool} {p w : Nat} (h : p + w ≤ l.length) :
    bitsOf w (group l p w) = (l.drop p).take w := by
  have hlen : ((l.drop p).take w).length = w := by simp; omega
  have := bitsOf_bitsValue ((l.drop p).take w)
  rwa [hlen] at this

/-- The bits of a final partial group are those left over, zero-filled (R139). -/
theorem bitsOf_group_mul_pow {l : List Bool} {p r n : Nat} (h : p + r ≤ l.length) (hr : r ≤ n) :
    bitsOf n (group l p r * 2 ^ (n - r)) = (l.drop p).take r ++ List.replicate (n - r) false := by
  have hlen : ((l.drop p).take r ++ List.replicate (n - r) false).length = n := by simp; omega
  have := bitsOf_bitsValue ((l.drop p).take r ++ List.replicate (n - r) false)
  rwa [hlen, bitsValue_append, bitsValue_replicate_false, List.length_replicate, Nat.add_zero] at this

/-- The first groups of a stream hold its first bits. -/
theorem flatMap_bitsOf_groups {l : List Bool} {n m : Nat} (h : m * n ≤ l.length) :
    ((List.range m).map (fun i => group l (i * n) n)).flatMap (bitsOf n) = l.take (m * n) := by
  induction m with
  | zero => simp
  | succ m ih =>
    rw [Nat.succ_mul] at h ⊢
    rw [List.range_succ, List.map_append, List.flatMap_append, ih (by omega), List.take_add]
    simp [bitsOf_group h]

theorem group_lt (l : List Bool) (p w : Nat) : group l p w < 2 ^ w :=
  (bitsValue_lt _).trans_le (Nat.pow_le_pow_right (by omega) (List.length_take_le ..))

theorem group_append_left {l t : List Bool} {p w : Nat} (h : p + w ≤ l.length) : group (l ++ t) p w = group l p w := by
  rw [group, List.drop_append_of_le_length (by omega), List.take_append_of_le_length (by simp; omega), group]

theorem group_take {l : List Bool} {p w m : Nat} (h : p + w ≤ m) : group (l.take m) p w = group l p w := by
  rw [group, List.drop_take, List.take_take, Nat.min_eq_left (by omega), group]

/-- The bits of byte `j` of a byte string (R12). -/
theorem byteBits_drop_take {bs : List Byte} {j : Nat} (hj : j < bs.length) :
    ((byteBits bs).drop (8 * j)).take 8 = bitsOf 8 bs[j].toNat := by
  refine List.ext_getElem? (fun b => ?_)
  by_cases hb : b < 8
  · rw [List.getElem?_take_of_lt hb, List.getElem?_drop, byteBits_getElem?, bitsOf_getElem? _ _ _ hb,
      show (8 * j + b) / 8 = j by omega, show (8 * j + b) % 8 = b by omega, List.getElem?_eq_getElem hj]
    rfl
  · rw [List.getElem?_eq_none (by simp; omega), List.getElem?_eq_none (by simp; omega)]

theorem group_byteBits {bs : List Byte} {j : Nat} (hj : j < bs.length) :
    group (byteBits bs) (8 * j) 8 = bs[j].toNat := by
  rw [group, byteBits_drop_take hj, bitsValue_bitsOf, Nat.mod_eq_of_lt bs[j].isLt]

/-- The value of bits with the last `e` of them dropped. -/
theorem bitsValue_take {l : List Bool} {m e : Nat} (h : l.length = m + e) :
    bitsValue (l.take m) = bitsValue l / 2 ^ e := by
  have hdrop := bitsValue_lt (l.drop m)
  have hlen : (l.drop m).length = e := by simp; omega
  rw [hlen] at hdrop
  conv_rhs => rw [← List.take_append_drop m l, bitsValue_append, hlen]
  rw [Nat.add_comm, Nat.add_mul_div_right _ _ (Nat.two_pow_pos e), Nat.div_eq_of_lt hdrop, Nat.zero_add]

/-- A group that reaches `e` bits past where a stream is cut off and zero-filled. -/
theorem group_take_append_zeros {l : List Bool} {p m e z : Nat} (hp : p ≤ m) (hl : m + e ≤ l.length) (hz : e ≤ z) :
    group (l.take m ++ List.replicate z false) p (m - p + e) = group l p (m - p + e) / 2 ^ e * 2 ^ e := by
  have hkept : ((l.drop p).take (m - p)).length = m - p := by simp; omega
  have hgroup : ((l.take m ++ List.replicate z false).drop p).take (m - p + e) =
      ((l.drop p).take (m - p + e)).take (m - p) ++ List.replicate e false := by
    rw [List.drop_append_of_le_length (by simp; omega), List.drop_take, List.take_append, List.take_take,
      List.take_take, List.take_replicate, hkept, Nat.min_eq_right (by omega), Nat.min_eq_left (Nat.le_add_right ..),
      Nat.add_sub_cancel_left, Nat.min_eq_left hz]
  rw [group, hgroup, bitsValue_append, bitsValue_replicate_false, bitsValue_take (e := e) (by simp; omega),
    List.length_replicate, Nat.add_zero, group]

/-! ### The bits that reach DEC -/

/-- How many of the bits of `k` input bytes are in the symbols of ENC: with RP = 1 all, without it those of the whole
groups (R137, R139). -/
def keptBits (n k : Nat) (rp : Bool) : Nat := if rp then 8 * k else 8 * k / n * n

theorem keptBits_le (n k : Nat) (rp : Bool) : keptBits n k rp ≤ 8 * k := by
  unfold keptBits
  split
  · exact Nat.le_refl _
  · exact Nat.div_mul_le_self ..

/-- Without RP the bits that no whole group holds are dropped. -/
theorem keptBits_add_mod (n k : Nat) : keptBits n k false + 8 * k % n = 8 * k := Nat.div_add_mod' ..

/-- The symbols of ENC hold the bits kept and nothing but zeros after them. -/
theorem encValues_bits {n : Nat} (hn : 0 < n) (rp : Bool) (bs : List Byte) :
    ∃ z, (encValues n rp bs).flatMap (bitsOf n) =
      (byteBits bs).take (keptBits n bs.length rp) ++ List.replicate z false := by
  have hdiv := Nat.div_add_mod' (8 * bs.length) n
  have hmod := Nat.mod_lt (8 * bs.length) hn
  have hwhole : 8 * bs.length / n * n ≤ (byteBits bs).length := by rw [byteBits_length]; omega
  simp only [encValues, List.flatMap_append, flatMap_bitsOf_groups hwhole]
  cases rp with
  | false => exact ⟨0, by simp [keptBits]⟩
  | true =>
    by_cases hr : 8 * bs.length % n = 0
    · refine ⟨0, ?_⟩
      rw [hr, Nat.add_zero] at hdiv
      simp [keptBits, hr, hdiv]
    · refine ⟨n - 8 * bs.length % n, ?_⟩
      rw [if_pos ⟨hr, rfl⟩, List.flatMap_singleton,
        bitsOf_group_mul_pow (by rw [byteBits_length]; omega) hmod.le, ← List.append_assoc, ← List.take_add, hdiv]
      rfl

/-- The bit stream DEC takes its bytes from, after an ENC: the bits kept, then zeros up to the last byte's end. -/
theorem decStream_encValues {n : Nat} (hn : 0 < n) (rp : Bool) (bs : List Byte) :
    ∃ z, (encValues n rp bs).flatMap (bitsOf n) ++ List.replicate
        (8 * decLen n (encValues n rp bs).length - n * (encValues n rp bs).length) false =
      (byteBits bs).take (keptBits n bs.length rp) ++ List.replicate z false ∧
      8 * decLen n (encValues n rp bs).length ≤ keptBits n bs.length rp + z := by
  obtain ⟨z, hz⟩ := encValues_bits hn rp bs
  have hlen := congrArg List.length hz
  have hkept := keptBits_le n bs.length rp
  rw [flatMap_bitsOf_length, List.length_append, List.length_take, byteBits_length, List.length_replicate,
    Nat.min_eq_left hkept] at hlen
  refine ⟨_, by rw [hz, List.append_assoc, ← List.replicate_add], ?_⟩
  omega

/-- A byte whose bits are all kept comes back as it was. -/
theorem decBytes_encValues_of_kept {n : Nat} (hn : 0 < n) {rp : Bool} {bs : List Byte} {j : Nat}
    (hj : j < decLen n (encValues n rp bs).length) (hkept : 8 * j + 8 ≤ keptBits n bs.length rp) :
    (decBytes n (encValues n rp bs))[j]? = bs[j]? := by
  have hle := keptBits_le n bs.length rp
  obtain ⟨z, hz, _⟩ := decStream_encValues hn rp bs
  rw [decBytes_getElem? _ _ _ hj, hz, group_append_left (by simp; omega), group_take hkept,
    group_byteBits (show j < bs.length by omega), BitVec.ofNat_toNat, BitVec.setWidth_eq, List.getElem?_eq_getElem]

/-- A byte of which all but the last `e` bits are kept comes back with those bits 0. -/
theorem decBytes_encValues_of_partly_kept {n : Nat} (hn : 0 < n) {rp : Bool} {bs : List Byte} {j e : Nat} {b : Byte}
    (hj : j < decLen n (encValues n rp bs).length) (hb : bs[j]? = some b) (he : e ≤ 8)
    (hkept : keptBits n bs.length rp + e = 8 * j + 8) :
    (decBytes n (encValues n rp bs))[j]? = some (BitVec.ofNat 8 (b.toNat / 2 ^ e * 2 ^ e)) := by
  obtain ⟨hbs, rfl⟩ := List.getElem?_eq_some_iff.1 hb
  obtain ⟨z, hz, hlen⟩ := decStream_encValues hn rp bs
  have hgroup := group_take_append_zeros (l := byteBits bs) (p := 8 * j) (m := keptBits n bs.length rp) (e := e)
    (z := z) (by omega) (by rw [byteBits_length]; omega) (by omega)
  rw [show keptBits n bs.length rp - 8 * j + e = 8 by omega, group_byteBits hbs] at hgroup
  rw [decBytes_getElem? _ _ _ hj, hz, hgroup]

/-- Clearing the low `e` bits of a byte changes it unless they were 0. -/
theorem ofNat_div_mul_pow_eq_iff (b : Byte) (e : Nat) :
    BitVec.ofNat 8 (b.toNat / 2 ^ e * 2 ^ e) = b ↔ b.toNat % 2 ^ e = 0 := by
  have hdiv := Nat.div_add_mod' b.toNat (2 ^ e)
  rw [← BitVec.toNat_inj, BitVec.toNat_ofNat, Nat.mod_eq_of_lt ((Nat.div_mul_le_self ..).trans_lt b.isLt)]
  omega

/-! ### How many bytes come back -/

section Lengths
variable {n k : Nat}

/-- Without RP every symbol is a whole group. -/
theorem bodyLength_bare (n k : Nat) : bodyLength n k false = 8 * k / n := by simp [bodyLength]

theorem decLen_bodyLength_rightPadded (hn : 0 < n) (hn8 : n ≤ 8) : decLen n (bodyLength n k true) = k := by
  have hdiv := Nat.div_add_mod (8 * k) n
  have hmod := Nat.mod_lt (8 * k) hn
  by_cases hr : 8 * k % n = 0
  · have hbody : bodyLength n k true = 8 * k / n := by simp [bodyLength, hr]
    rw [hbody, decLen]
    split_ifs <;> omega
  · have hbody : bodyLength n k true = 8 * k / n + 1 := by simp [bodyLength, hr]
    rw [hbody, decLen, Nat.mul_succ]
    split_ifs <;> omega

/-- Without RP a last byte that lost at most `8 - n` bits still has a whole symbol's bits, and DEC emits it (R153). -/
theorem decLen_bodyLength_bare (hn : 0 < n) (hle : 8 * k % n ≤ 8 - n) : decLen n (bodyLength n k false) = k := by
  have hdiv := Nat.div_add_mod (8 * k) n
  have hmod := Nat.mod_lt (8 * k) hn
  rw [bodyLength_bare, decLen]
  split_ifs <;> omega

/-- Without RP a last byte that lost more bits is a tail DEC discards (R153). -/
theorem decLen_bodyLength_dropped (hn : 0 < n) (hn8 : n ≤ 8) (hgt : 8 * k % n > 8 - n) :
    decLen n (bodyLength n k false) = k - 1 := by
  have hdiv := Nat.div_add_mod (8 * k) n
  have hmod := Nat.mod_lt (8 * k) hn
  rw [bodyLength_bare, decLen]
  split_ifs <;> omega

/-- Symbols of at most 8 bits never make more bytes than they are. -/
theorem decLen_le (hn : 0 < n) (hn8 : n ≤ 8) (len : Nat) : decLen n len ≤ len := by
  have hmul : n * len ≤ 8 * len := Nat.mul_le_mul_right len hn8
  rw [decLen]
  split_ifs <;> omega

end Lengths

/-! ### DEC after ENC and XFER -/

theorem encValues_lt {n : Nat} (hn : 0 < n) (rp : Bool) (bs : List Byte) {v : Nat} (hv : v ∈ encValues n rp bs) :
    v < 2 ^ n := by
  have hmod := Nat.mod_lt (8 * bs.length) hn
  rcases List.mem_append.1 hv with hwhole | hpartial
  · obtain ⟨i, _, rfl⟩ := List.mem_map.1 hwhole
    exact group_lt ..
  · split at hpartial
    · obtain rfl := List.mem_singleton.1 hpartial
      have hpow : 2 ^ (8 * bs.length % n) * 2 ^ (n - 8 * bs.length % n) = 2 ^ n := by
        rw [← pow_add, Nat.add_sub_cancel' hmod.le]
      rw [← hpow]
      exact Nat.mul_lt_mul_of_pos_right (group_lt ..) (Nat.two_pow_pos _)
    · cases hpartial

/-- What is left of a body without pads, and pads behind it, when the pads are stripped (R151). -/
theorem stripPads_append_replicate {pe : Bool} {pad : Byte} {body : List Byte} {c : Nat}
    (hbody : pe = true → ∀ x ∈ body, x ≠ pad) (hpads : pe = false → c = 0) :
    stripPads pe pad (body ++ List.replicate c pad) = body := by
  cases pe with
  | false => simp [hpads rfl]
  | true =>
    have hself : body.reverse.dropWhile (fun x => x == pad) = body.reverse :=
      List.dropWhile_eq_self_iff.2 fun hpos hhead =>
        hbody rfl _ (List.mem_reverse.1 (List.getElem_mem hpos)) (eq_of_beq hhead)
    rw [stripPads, if_pos rfl, List.reverse_append, List.reverse_replicate,
      List.dropWhile_append_of_pos (by simp), hself, List.reverse_reverse]

/-- DEC finds in the output of ENC the values ENC made it from. -/
theorem decValues_of_encOutput {s t : State} {m : Memory} (hinv : cfgInv s.cfg s.activeAlpha)
    (hvalid : s.cfg.valid = true) (hcfg : t.cfg = s.cfg) (htable : t.activeAlpha = s.activeAlpha)
    (hmem : t.mem = m.writeBytes Buffer.inBuf.base s.encOutput) (hlen : t.inLen.toNat = s.encOutput.length) :
    t.decValues = .ok s.encBody := by
  have hs := State.configured_of_cfgInv hinv hvalid
  have ht : t.Configured := State.configured_of_cfgInv (by rwa [hcfg, htable]) (by rwa [hcfg])
  have hlt : ∀ v ∈ s.encBody, v < 2 ^ s.cfg.n.toNat := fun v hv => encValues_lt hs.width_pos _ _ hv
  have hstrip : t.decLength = s.encBody.length := by
    rw [State.decLength, hcfg, hlen, State.readBuf_of_mem_eq hmem 0 le_rfl, List.take_length, State.encOutput_eq_append,
      stripPads_append_replicate, List.length_map]
    · intro hpe x hx
      obtain ⟨v, hv, rfl⟩ := List.mem_map.1 hx
      exact hs.pad_ne_symbol hpe v (hlt v hv)
    · intro hpe
      rw [if_neg (fun hpg => by simp [hs.pe_of_pg hpg] at hpe)]
  have hread : t.readBuf 1 .inBuf t.decLength = s.encBody.map s.symbol := by
    rw [hstrip, State.readBuf_of_mem_eq hmem 1 s.encBody_length_le, State.encOutput_eq_append]
    exact List.take_left' (List.length_map ..)
  rw [State.decValues, hread, symbolValues_eq_ok, List.map_map]
  refine List.map_congr_left (fun v hv => ?_)
  have hv' : v < 2 ^ t.cfg.n.toNat := hcfg.symm ▸ hlt v hv
  exact ht.symbolValue_eq hv' (by rw [hs.symbol_congr htable (hlt v hv)])

/-- After ENC and XFER the codec is as before and IN_BUF holds ENC's output. -/
theorem input_of_enc_xfer {s s1 s2 : State} (h1 : exec .enc s = .next s1) (hok : s1.errCode = .ok)
    (hfit : s1.outLen.toNat ≤ s.inCap) (h2 : exec .xfer s1 = .next s2) :
    s2.cfg = s.cfg ∧ s2.activeAlpha = s.activeAlpha ∧ s2.params = s.params ∧
      s2.inLen.toNat = s.encOutput.length ∧ ∃ m : Memory, s2.mem = m.writeBytes Buffer.inBuf.base s.encOutput := by
  obtain ⟨_, _, hout, rfl⟩ := exec_enc_ok h1 hok
  have hlen : ((s.putOutput s.encOutput).report .ok 0#16).outLen.toNat = s.encOutput.length :=
    s.toNat_putOutput_outLen hout
  have hread : ((s.putOutput s.encOutput).report .ok 0#16).readBuf 0 .outBuf s.encOutput.length = s.encOutput :=
    (State.readBuf_of_mem_eq rfl 0 le_rfl).trans List.take_length
  rw [exec_xfer_completes hfit, hlen, hread] at h2
  obtain rfl := Host.Outcome.next.inj h2
  exact ⟨rfl, rfl, rfl, State.toNat_putInput_inLen _ (hlen ▸ hfit), _, rfl⟩

/-- ENC, XFER and DEC in a row complete if ENC does and its output fits IN_BUF; OUT_BUF then holds DEC's bytes of ENC's
values. -/
theorem roundTrip_output {s s1 s2 s3 : State} (hinv : cfgInv s.cfg s.activeAlpha) (h1 : exec .enc s = .next s1)
    (hok : s1.errCode = .ok) (hfit : s1.outLen.toNat ≤ s.inCap) (h2 : exec .xfer s1 = .next s2)
    (h3 : exec .dec s2 = .next s3) :
    s.Configured ∧ s3.errCode = .ok ∧ s3.outLen.toNat = decLen s.cfg.n.toNat s.encBody.length ∧
      ∀ i, i < decLen s.cfg.n.toNat s.encBody.length →
        s3.mem.byteAt (0x2000 + i) = (decBytes s.cfg.n.toNat s.encBody)[i]? := by
  obtain ⟨hcfg, htable, hparams, hinLen, m, hmem⟩ := input_of_enc_xfer h1 hok hfit h2
  obtain ⟨hvalid, _, hout, rfl⟩ := exec_enc_ok h1 hok
  have hconf := State.configured_of_cfgInv hinv hvalid
  have hvals := decValues_of_encOutput hinv hvalid hcfg htable hmem hinLen
  have hin : s2.inLen.toNat ≤ s2.inCap := by
    rw [hinLen, State.inCap, hparams, ← s.toNat_putOutput_outLen hout]
    exact hfit
  have hdec : decLen s.cfg.n.toNat s.encBody.length ≤ s2.outCap := by
    rw [State.outCap, hparams]
    exact (decLen_le hconf.width_pos hconf.width_le _).trans (s.encBody_length_le.trans hout)
  rw [exec_dec_completes (hcfg ▸ hvalid) hin hvals (by rwa [hcfg]), hcfg] at h3
  obtain rfl := Host.Outcome.next.inj h3
  rw [← decBytes_length] at hdec ⊢
  exact ⟨hconf, rfl, s2.toNat_putOutput_outLen hdec, fun i hi => Memory.byteAt_writeBytes_inside _ _ _ i hi⟩

/-- Settles O37: every byte but the last comes back, and how much of the last one does is a matter of the bits ENC keeps
and of the tail rule. -/
theorem encXferDecRoundTrip : Obligations.EncXferDecRoundTrip := by
  intro s s1 s2 s3 hinv h1 hok hfit h2 h3 n k B e
  obtain ⟨hconf, hok3, houtLen, hbytes⟩ := roundTrip_output hinv h1 hok hfit h2 h3
  have hn : 0 < n := hconf.width_pos
  have hn8 : n ≤ 8 := hconf.width_le
  have hmod : e < n := Nat.mod_lt _ hn
  have hinput : (s.readBuf 0 .inBuf k).length = k := s.readBuf_length ..
  have hkept : ∀ i, i < s3.outLen.toNat → 8 * i + 8 ≤ keptBits n k s.cfg.rp →
      s3.mem.byteAt (0x2000 + i) = some (B i) := by
    intro i hi hle
    have hle8 := keptBits_le n k s.cfg.rp
    rw [houtLen] at hi
    rw [hbytes i hi, State.encBody, decBytes_encValues_of_kept hn hi (hinput.symm ▸ hle),
      State.readBuf_getElem? _ _ _ (show i < k by omega)]
  have hlen : s3.outLen.toNat = decLen n (bodyLength n k s.cfg.rp) := houtLen.trans (by rw [s.encBody_length])
  have hdropped := keptBits_add_mod n k
  refine ⟨hok3, fun hexact => ?_, fun hrp he hle => ?_, fun hrp hgt => ?_⟩
  · have hall : s3.outLen.toNat = k ∧ keptBits n k s.cfg.rp = 8 * k := by
      rw [hlen]
      cases hrp : s.cfg.rp with
      | true => exact ⟨decLen_bodyLength_rightPadded hn hn8, rfl⟩
      | false =>
        have he : e = 0 := by simpa [hrp] using hexact
        exact ⟨decLen_bodyLength_bare hn (by omega), by omega⟩
    exact ⟨hall.1, fun i hi => hkept i (by omega) (by omega)⟩
  · rw [hrp, decLen_bodyLength_bare hn hle] at hlen
    rw [hrp] at hkept
    have hlast : s3.mem.byteAt (0x2000 + (k - 1)) = some (BitVec.ofNat 8 ((B (k - 1)).toNat / 2 ^ e * 2 ^ e)) := by
      have hj : k - 1 < decLen n s.encBody.length := (show k - 1 < s3.outLen.toNat by omega).trans_eq houtLen
      rw [hbytes _ hj]
      exact decBytes_encValues_of_partly_kept hn hj (State.readBuf_getElem? _ _ _ (by omega)) (by omega)
        (by rw [hrp, hinput]; omega)
    refine ⟨hlen, fun i hi => hkept i (by omega) (by omega), hlast, ?_⟩
    rw [hlast, Option.some.injEq, ofNat_div_mul_pow_eq_iff]
  · rw [hrp, decLen_bodyLength_dropped hn hn8 hgt] at hlen
    rw [hrp] at hkept
    exact ⟨hlen, fun i hi => hkept i (by omega) (by omega)⟩

end Sys2Proof.Machine
end

section
/-! PROOFS. The one-time code family (41_otp.md): the counter and its bytes, SETLEN's clamp, the truncated value, the
decimal code, and OTP as TRUNC and then FMT. -/

namespace Sys2Proof.Machine
open Sys2Proof.Spec

/-- What is seen of a command that completes with `bs` written to the buffer `b`: the bytes and the frame. -/
theorem written_of_exec {i : Instr} {s : State} {b : Buffer} {bs : List Byte}
    (h : exec i s = .next ((s.writeBuf b bs).report .ok 0#16)) :
    ∃ t, exec i s = .next t ∧ succeeded { s with mem := t.mem } t ∧
      (∀ j, j < bs.length → t.mem.byteAt (b.base + j) = bs[j]?) ∧
      (∀ a, (a < b.base ∨ b.base + bs.length ≤ a) → t.mem.byteAt a = s.mem.byteAt a) :=
  ⟨_, h, succeeded_report _, fun j hj => Memory.byteAt_writeBytes_inside bs s.mem b.base j hj,
    fun a ha => Memory.byteAt_writeBytes_outside bs s.mem b.base a ha⟩

/-! ### The counter (R180, R181) -/

/-- A 64-bit register is the number its two halves make (R72). -/
theorem highHalf_mul_add_lowHalf (x : BitVec 64) :
    (x.extractLsb' 32 32).toNat * 2 ^ 32 + (x.extractLsb' 0 32).toNat = x.toNat := by
  rw [toNat_highHalf, toNat_lowHalf, Nat.div_add_mod']

theorem toNat_timeStep (t : BitVec 64) : (timeStep t).toNat = t.toNat / 30 := by
  have ht := t.isLt
  rw [timeStep, BitVec.toNat_ofNat]
  omega

/-- Settles O39: the halves of CTR and of TIME make the numbers that `timeStep` relates. -/
theorem tstepDividesTheTimeByThirty : Obligations.TstepDividesTheTimeByThirty := by
  refine ⟨onlyWord_wordF0 (op := 0x20#8) rfl, fun s => ⟨_, rfl, ?_, succeeded_report _⟩⟩
  simp only [State.regRead, State.report_ctr, highHalf_mul_add_lowHalf, toNat_timeStep]

/-- Settles O40: byte `i` of the big-endian form is 7 - i bytes up from the least significant. -/
theorem serWritesTheCounterBigEndian : Obligations.SerWritesTheCounterBigEndian := by
  refine ⟨onlyWord_wordF0 (op := 0x21#8) rfl, fun s => ?_⟩
  obtain ⟨t, hexec, hdone, hbytes, hframe⟩ :=
    written_of_exec (i := .ser) (s := s) (b := .msg) (bs := counterBytes s.ctr) rfl
  rw [counterBytes_length] at hbytes hframe
  refine ⟨t, hexec, hdone, fun i hi => ?_, hframe⟩
  have hpow : 2 ^ (56 - 8 * i) = 256 ^ (7 - i) := by
    rw [show 56 - 8 * i = 8 * (7 - i) by omega]
    exact pow_mul 2 8 (7 - i)
  exact (hbytes i hi).trans (by rw [counterBytes_getElem? _ _ hi, hpow])

/-! ### CODE_LEN (R182) -/

theorem toNat_clampLen (imm : Byte) : (clampLen imm).toNat = max 6 imm.toNat := by
  unfold clampLen
  split
  · next hlow => exact (max_eq_left hlow.le).symm
  · next hhigh => exact (max_eq_right (not_lt.1 hhigh)).symm

/-- A word of format FI as a number (R102). -/
theorem wordFI_eq_ofNat (imm op : Byte) : wordFI imm op = BitVec.ofNat 32 (imm.toNat * 256 + op.toNat) := by
  have hnum : (wordFI imm op).toNat = imm.toNat * 256 + op.toNat := by
    rw [wordFI, toNat_append_eq_add, toNat_append_eq_add, BitVec.toNat_ofNat, Nat.zero_mod, zero_mul, zero_add,
      show 2 ^ 8 = 256 from rfl]
  rw [← hnum, BitVec.ofNat_toNat, BitVec.setWidth_eq]

/-- Settles O41: the decoder by the word's number, and the clamp as a maximum. -/
theorem setlenClampsToSix : Obligations.SetlenClampsToSix := by
  refine ⟨fun imm => ?_, fun w hop hreserved => ?_, fun imm s => ⟨_, rfl, toNat_clampLen imm, succeeded_report _⟩⟩
  · exact wordFI_eq_ofNat imm 0x22#8 ▸ decode_wordFI imm
  · exact ⟨_, by rw [decode_of_op_setlen hop, if_neg hreserved]⟩

/-! ### The truncated value (R183) -/

theorem truncOffset_eq_mod (b : Byte) : truncOffset b = b.toNat % 16 := by
  rw [truncOffset, BitVec.toNat_and]
  exact Nat.and_two_pow_sub_one_eq_mod b.toNat 4

theorem toNat_word4 (b0 b1 b2 b3 : Byte) :
    (word4 b0 b1 b2 b3).toNat = b0.toNat * 2 ^ 24 + b1.toNat * 2 ^ 16 + b2.toNat * 2 ^ 8 + b3.toNat := by
  rw [word4, toNat_append_eq_add, toNat_append_eq_add, toNat_append_eq_add]
  ring

/-- Dropping the sign bit is reducing mod 2^31. -/
theorem toNat_mask31 (x : BitVec 32) : (mask31 x).toNat = x.toNat % 2 ^ 31 := by
  have hand : (x &&& 0x7FFFFFFF#32).toNat = x.toNat % 2 ^ 31 := by
    rw [BitVec.toNat_and]
    exact Nat.and_two_pow_sub_one_eq_mod x.toNat 31
  rw [mask31, BitVec.toNat_setWidth, hand, Nat.mod_mod]

/-- Settles O42: each bit operation of the truncation as arithmetic. -/
theorem truncSelectsThirtyOneBits : Obligations.TruncSelectsThirtyOneBits := by
  refine ⟨onlyWord_wordF0 (op := 0x23#8) rfl, fun s => ⟨_, rfl, ?_, ?_, succeeded_report _⟩⟩
  · rw [State.report_toff, State.truncate_toff, BitVec.toNat_ofNat, truncOffset_eq_mod]
    exact Nat.mod_mod _ 16
  · rw [State.report_tval, State.truncate_tval, truncValue, toNat_mask31, toNat_word4, truncOffset_eq_mod]
    rfl

/-! ### The decimal code (R184) -/

/-- Settles O43: the bytes FMT writes are the digits of the code. -/
theorem fmtWritesTheDecimalCode : Obligations.FmtWritesTheDecimalCode := by
  refine ⟨onlyWord_wordF0 (op := 0x24#8) rfl, fun s => ?_⟩
  obtain ⟨t, hexec, hdone, hbytes, hframe⟩ :=
    written_of_exec (i := .fmt) (s := s) (b := .codeBuf) (bs := codeDigits s.codeLen.toNat s.tval.toNat) rfl
  rw [codeDigits_length] at hbytes hframe
  exact ⟨t, hexec, hdone, fun j hj => (hbytes j hj).trans (codeDigits_getElem? _ _ j hj), hframe⟩

/-- The `d` low decimal digits of a number, least significant first, make its residue mod 10^d. -/
theorem sum_digits_eq_mod (c d : Nat) : ∑ j ∈ Finset.range d, c / 10 ^ j % 10 * 10 ^ j = c % 10 ^ d := by
  induction d with
  | zero => simp [Nat.mod_one]
  | succ d ih => rw [Finset.sum_range_succ, ih, Nat.mod_pow_succ, mul_comm (10 ^ d)]

/-- The same digits, most significant first, as the code has them. -/
theorem sum_digits_msb_first_eq_mod (c d : Nat) :
    ∑ j ∈ Finset.range d, c / 10 ^ (d - 1 - j) % 10 * 10 ^ (d - 1 - j) = c % 10 ^ d := by
  rw [← sum_digits_eq_mod c d]
  exact Finset.sum_range_reflect (fun j => c / 10 ^ j % 10 * 10 ^ j) d

/-- TVAL has at most ten decimal digits (R186). -/
theorem tval_mod_of_ten_digits (v : BitVec 31) {d : Nat} (hd : 10 ≤ d) : v.toNat % 10 ^ d = v.toNat := by
  have hpow : 10 ^ 10 ≤ 10 ^ d := Nat.pow_le_pow_right (by decide) hd
  have hv := v.isLt
  exact Nat.mod_eq_of_lt (by omega)

/-- Settles O44: digit `j` is the one `fmtWritesTheDecimalCode` finds at `CODE_BUF[j]`. -/
theorem theCodeReadsBackAsTheValue : Obligations.TheCodeReadsBackAsTheValue := by
  intro s t h
  obtain ⟨t', hexec, _, hbytes, _⟩ := fmtWritesTheDecimalCode.2 s
  obtain rfl : t' = t := Host.Outcome.next.inj (hexec.symm.trans h)
  refine ⟨_, fun j hj => ⟨Nat.mod_lt _ (by decide), hbytes j hj⟩, ?_, fun hd => tval_mod_of_ten_digits s.tval hd⟩
  rw [sum_digits_msb_first_eq_mod, Nat.mod_mod]

/-! ### OTP (R185) -/

/-- FMT neither reads nor writes what a report does, so the two commute. -/
theorem State.format_report (u : State) (e : ErrCode) (info : BitVec 16) :
    (u.report e info).format = u.format.report e info := rfl

/-- A success reported twice is a success reported once, but for the tick. -/
theorem State.report_ok_report_ok (u : State) :
    u.report .ok 0#16 = { (u.report .ok 0#16).report .ok 0#16 with tick := u.tick + 1 } := by
  simp [State.report]

/-- Settles O45: the report of TRUNC between the two is all that OTP leaves out, and FMT's report covers it. -/
theorem otpIsTruncThenFmt : Obligations.OtpIsTruncThenFmt := by
  refine ⟨onlyWord_wordF0 (op := 0x25#8) rfl, fun s => ⟨_, _, _, rfl, rfl, rfl, ?_, succeeded_report _⟩⟩
  rw [State.format_report]
  exact State.report_ok_report_ok s.truncate.format

end Sys2Proof.Machine
end

section
/-! PROOFS. The control family (42_control.md): NOP, and SRST as power-on reset of the registers alone. -/

namespace Sys2Proof.Machine
open Sys2Proof.Spec

/-! ### NOP (R220) -/

/-- Settles O22: NOP is the report of a success on the state as it stands. -/
theorem nopOnlyClearsErrCode : Obligations.NopOnlyClearsErrCode :=
  ⟨onlyWord_wordF0 (op := 0x00#8) rfl, fun s => ⟨_, rfl, succeeded_report s⟩⟩

/-! ### SRST (R221, R261) -/

/-- SRST and its report leave the block as power-on makes it, but with the buffers kept. -/
theorem State.softReset_report_toBlock (s : State) :
    (s.softReset.report .ok 0#16).toBlock = { Block.reset with mem := s.mem, activeAlpha := s.activeAlpha } := rfl

/-- The buffers are no part of what a register reads as. -/
theorem State.regRead_of_toBlock_eq {s t : State} {m a : Memory}
    (h : t.toBlock = { s.toBlock with mem := m, activeAlpha := a }) (r : Reg) : t.regRead r = s.regRead r := by
  cases r <;> simp only [State.regRead, h]

/-- Settles O23: the registers read as after reset because the block is the reset one but for its buffers. -/
theorem srstResetsRegistersAndKeepsBuffers : Obligations.SrstResetsRegistersAndKeepsBuffers :=
  ⟨onlyWord_wordF0 (op := 0xFF#8) rfl, fun s => ⟨_, rfl,
    State.regRead_of_toBlock_eq (s := State.reset) s.softReset_report_toBlock, succeeded_report s.softReset⟩⟩

end Sys2Proof.Machine
end

section
/-! PROOFS. The exceptions family (60_exceptions.md): the codes commands report, what a failure writes, who sets and
clears ANYERR, which transactions get OKAY, and the HMAC step. -/

namespace Sys2Proof.Machine
open Sys2Proof.Spec

/-! ### The block never stops (R230, R239) -/

/-- Settles O7: every event is served to a next state, and without one the state is held. -/
theorem everyStepGoesOn : Obligations.EveryStepGoesOn := by
  intro s
  obtain ⟨t, ht, _⟩ := step_keeps_params s
  exact ⟨⟨t, ht⟩, step_of_port_nil⟩

/-! ### The codes (R231) -/

/-- The checks of R134 fail with codes of CFG alone. -/
theorem cfgCheck_code {n : Nat} {ci rp pg pe : Bool} {pad : Byte} {alphaLen : Nat} {alpha : List Byte} {e : ErrCode}
    (h : cfgCheck n ci pg pe pad alphaLen alpha = some e) : e ∈ codesOf (.cfg n ci rp pg pe pad) := by
  unfold cfgCheck at h
  split_ifs at h <;> obtain rfl := Option.some.inj h <;> simp [codesOf]

/-- A command ends with one of its own codes. -/
theorem exec_code (i : Instr) (s : State) : ∃ t, exec i s = .next t ∧ t.errCode ∈ codesOf i := by
  cases i with
  | cfg n ci rp pg pe pad =>
    rcases execCfg_cases n ci rp pg pe pad s with ⟨e, hcheck, h⟩ | ⟨_, h⟩
    · exact ⟨_, h, cfgCheck_code hcheck⟩
    · exact ⟨_, h, by simp [codesOf]⟩
  | enc =>
    rcases execEnc_cases s with ⟨_, h⟩ | ⟨_, _, h⟩ | ⟨_, _, _, h⟩ | ⟨_, _, _, h⟩ <;>
      exact ⟨_, h, by simp [codesOf]⟩
  | dec =>
    rcases execDec_cases s with ⟨_, h⟩ | ⟨_, _, h⟩ | ⟨_, _, _, _, h⟩ | ⟨_, _, _, _, _, h⟩ | ⟨_, _, _, _, _, h⟩ <;>
      exact ⟨_, h, by simp [codesOf]⟩
  | xfer => rcases execXfer_cases s with ⟨_, h⟩ | ⟨_, h⟩ <;> exact ⟨_, h, by simp [codesOf]⟩
  | _ => exact ⟨_, rfl, List.mem_singleton_self _⟩

/-- Settles O16: the numbers of the codes one by one, and each command's codes from all it can do. -/
theorem commandsReportOnlyTheirCodes : Obligations.CommandsReportOnlyTheirCodes := by
  refine ⟨rfl, fun e => by cases e <;> decide, fun i s t h => ?_⟩
  obtain ⟨t', ht', hcode⟩ := exec_code i s
  obtain rfl := Host.Outcome.next.inj (ht'.symm.trans h)
  exact hcode

/-! ### What a failure writes (R232) -/

/-- A command that fails leaves the state it found, but for CFG, which has cleared the register CFG. -/
theorem Effect.eq_of_fails {s u : State} {i : Instr} {e : ErrCode} {info : BitVec 16} (h : Effect s i u e info)
    (he : e ≠ .ok) : u = { s with cfg := if isCfg i then CfgReg.cleared else s.cfg } := by
  cases h with
  | failed hi => rcases hi with rfl | rfl | rfl <;> rfl
  | cfgFailed => rfl
  | _ => exact absurd rfl he

/-- Settles O17: what a failing command leaves is only the state its report is made on. -/
theorem failureIsAtomic : Obligations.FailureIsAtomic := by
  intro i s t h he
  obtain ⟨u, e, info, heff, rfl⟩ := effect_of_exec h
  rw [← heff.eq_of_fails he]
  exact failed_report u he info

/-! ### STATUS and ERRINFO after a command word (R233) -/

/-- No command but SRST touches ANYERR before its report (R234). -/
theorem Effect.anyErr_eq {s u : State} {i : Instr} {e : ErrCode} {info : BitVec 16} (h : Effect s i u e info)
    (hi : i ≠ .srst) : u.anyErr = s.anyErr := by
  cases h with
  | srst => exact absurd rfl hi
  | _ => rfl

/-- Every command word, legal or not, ends in a report, with information for E_BADSYM alone, on a state whose ANYERR is
as it was unless the word is SRST's. -/
theorem execWord_reports (w : Word) (s : State) :
    ∃ u e info, execWord w s = .next (State.report u e info) ∧ (e ≠ .badSym → info = 0#16) ∧
      (decode w ≠ .ok .srst → u.anyErr = s.anyErr) := by
  rcases execWord_cases w s with ⟨i, hdec, hw⟩ | ⟨_, _, hw⟩
  · obtain ⟨u, e, info, heff, hexec⟩ := exec_effect i s
    exact ⟨u, e, info, hw.trans hexec, heff.errInfo_eq_zero, fun hne => heff.anyErr_eq (fun hi => hne (hi ▸ hdec))⟩
  · exact ⟨s, .illegal, 0#16, hw, fun _ => rfl, fun _ => rfl⟩

/-- With other flags a command word does the same, but for ANYERR. -/
theorem execWord_withFlags (w : Word) (s : State) (e : ErrCode) (any : Bool) (info : BitVec 16) :
    agreeUpTo State.setAnyErr (execWord w s) (execWord w (s.withFlags e any info)) := by
  unfold execWord
  split
  · exact exec_withFlags _ s e any info
  · exact ⟨_, _, rfl, rfl⟩

/-- Settles O15: the report writes the flags, and the command chooses what it reports without reading them. -/
theorem everyCommandWritesStatusAndErrInfo : Obligations.EveryCommandWritesStatusAndErrInfo := by
  intro s w
  obtain ⟨u, e, info, hw, hinfo, hany⟩ := execWord_reports w s
  refine ⟨_, hw, fun e' any' info' => ?_, hinfo, fun he => ?_, fun he hne => ?_⟩
  · obtain ⟨t, any, ht, ht'⟩ := execWord_withFlags w s e' any' info'
    obtain rfl := Host.Outcome.next.inj (hw.symm.trans ht)
    exact ⟨_, ht', rfl, rfl⟩
  · replace he : e ≠ .ok := he
    simp [he]
  · obtain rfl : e = .ok := he
    simp [hany hne]

/-! ### ANYERR (R234) -/

/-- The only command word that clears ANYERR is SRST's. -/
theorem execWord_clears_anyErr {w : Word} {s t : State} (h : execWord w s = .next t) (hs : s.anyErr = true)
    (ht : t.anyErr = false) : decode w = .ok .srst := by
  obtain ⟨u, e, info, hw, _, hany⟩ := execWord_reports w s
  obtain rfl := Host.Outcome.next.inj (hw.symm.trans h)
  by_contra hne
  simp [hany hne, hs] at ht

/-- The only register write that clears ANYERR is one to STATUS with bit 8 set (R25). -/
theorem State.regWrite_clears_anyErr {s : State} {v : Word} {r : Reg} (hs : s.anyErr = true)
    (ht : (s.regWrite v r).anyErr = false) : r = .status ∧ v.getLsbD 8 = true := by
  cases r with
  | status =>
    refine ⟨rfl, ?_⟩
    by_contra hbit
    rw [State.regWrite, if_neg hbit, hs] at ht
    exact Bool.noConfusion ht
  | _ => simp [State.regWrite, hs] at ht

/-- The only writes that clear ANYERR are those to STATUS with bit 8 set and those of SRST to CMD. -/
theorem State.serveWrite_clears_anyErr {s t : State} {off : BitVec 14} {data : WriteData}
    (h : s.serveWrite off data = .next t) (hs : s.anyErr = true) (ht : t.anyErr = false) :
    (∃ v : Word, off = 0x004#14 ∧ data = .four v ∧ v.getLsbD 8 = true) ∨
    (∃ w : Word, off = 0x000#14 ∧ data = .four w ∧ decode w = .ok .srst) := by
  rcases s.serveWrite_cases off data with hw | ⟨w, hoff, rfl, hw⟩ | ⟨r, v, hloc, _, rfl, hw⟩ | ⟨_, _, _, _, _, _, hw⟩ |
    ⟨_, _, _, _, _, _, hw⟩ <;> rw [hw] at h
  · obtain rfl := Host.Outcome.next.inj h
    simp [hs] at ht
  · obtain ⟨u, hu⟩ := execWord_next w s
    rw [hu] at h
    obtain rfl := Host.Outcome.next.inj h
    exact .inr ⟨w, BitVec.eq_of_toNat_eq hoff, rfl, execWord_clears_anyErr hu hs ht⟩
  · obtain rfl := Host.Outcome.next.inj h
    obtain ⟨rfl, hbit⟩ := State.regWrite_clears_anyErr hs ht
    exact .inl ⟨v, BitVec.eq_of_toNat_eq (locate_eq_reg hloc), rfl, hbit⟩
  · obtain rfl := Host.Outcome.next.inj h
    simp [hs] at ht
  · obtain rfl := Host.Outcome.next.inj h
    simp [hs] at ht

/-- Settles O18: a report sets ANYERR, and of the events only those writes and the resets clear it. -/
theorem anyErrIsSticky : Obligations.AnyErrIsSticky := by
  refine ⟨fun w s t h he => ?_, fun s t ev rest hport h hs ht => ?_⟩
  · obtain ⟨t', ht', _, _, hset, _⟩ := everyCommandWritesStatusAndErrInfo s w
    obtain rfl := Host.Outcome.next.inj (ht'.symm.trans h)
    exact hset he
  · rw [step_of_port hport] at h
    cases ev with
    | bus tr =>
      cases tr with
      | read off size =>
        obtain ⟨r, k, hread⟩ := State.serveRead_frame { s with port := rest } off size
        obtain rfl := Host.Outcome.next.inj h
        simp [hread, hs] at ht
      | write off data =>
        rcases State.serveWrite_clears_anyErr h hs ht with ⟨v, rfl, rfl, hbit⟩ | ⟨w, rfl, rfl, hdec⟩
        · exact .inl ⟨v, rfl, hbit⟩
        · exact .inr (.inl ⟨w, rfl, hdec⟩)
    | pinReset => exact .inr (.inr (.inl rfl))
    | resetDuringCmd w => exact .inr (.inr (.inr ⟨w, rfl⟩))
    | hmacStep =>
      obtain rfl := Host.Outcome.next.inj h
      simp [hs] at ht

/-! ### Which transactions get OKAY (R236) -/

theorem Transaction.fits_iff (p : Params) (tr : Transaction) :
    tr.fits p ↔ (∃ r : Reg, tr.off = r.offset ∧ tr.size = .four) ∨
      (∃ (b : Buffer) (i : Nat), i < b.size p ∧ tr.off = b.base + i ∧ tr.size = .one) := by
  simp only [Transaction.fits, locate_eq_reg_iff, locate_eq_byte_iff, and_assoc, and_left_comm]

/-- A read that fits its offset gets OKAY, with a register's value or a byte's. -/
theorem State.serveRead_of_fits {s : State} {off : BitVec 14} {size : AccessSize}
    (h : Transaction.fits s.params (.read off size)) :
    ∃ r, (s.serveRead off size).response = some r ∧ r.resp = .okay := by
  unfold State.serveRead
  split
  · exact ⟨_, rfl, rfl⟩
  · exact ⟨_, rfl, rfl⟩
  · next hreg hbyte =>
    rcases h with ⟨q, hloc, hsize⟩ | ⟨b, i, hloc, hsize⟩
    · exact (hreg q hloc hsize).elim
    · exact (hbyte b i hloc hsize).elim

theorem WriteData.exists_eq_four {d : WriteData} (h : d.size = .four) : ∃ v, d = .four v := by
  cases d with
  | four v => exact ⟨v, rfl⟩
  | _ => cases h

theorem WriteData.exists_eq_one {d : WriteData} (h : d.size = .one) : ∃ v, d = .one v := by
  cases d with
  | one v => exact ⟨v, rfl⟩
  | _ => cases h

/-- A write that fits its offset gets OKAY: it runs a command, whether that fails or not (R78), or goes to a register
or to a window byte. -/
theorem State.serveWrite_of_fits {s : State} {off : BitVec 14} {data : WriteData}
    (h : Transaction.fits s.params (.write off data)) :
    ∃ t r, s.serveWrite off data = .next t ∧ t.response = some r ∧ r.resp = .okay := by
  unfold State.serveWrite
  split
  · next w _ =>
    obtain ⟨t, ht⟩ := execWord_next w s
    exact ⟨t.respond okayWrite, okayWrite, congrArg acknowledge ht, rfl, rfl⟩
  · exact ⟨_, okayWrite, rfl, rfl, rfl⟩
  · exact ⟨_, okayWrite, rfl, rfl, rfl⟩
  · next hreg hbyte =>
    rcases h with ⟨q, hloc, hsize⟩ | ⟨b, i, hloc, hsize⟩
    · obtain ⟨v, hv⟩ := WriteData.exists_eq_four hsize
      exact (hreg q v hloc hv).elim
    · obtain ⟨v, hv⟩ := WriteData.exists_eq_one hsize
      exact (hbyte b i v hloc hv).elim

/-- A transaction that fits its offset gets OKAY (R63, R64, R67, R78). -/
theorem step_of_fits {s : State} {rest : List PortEvent} {tr : Transaction} (hport : s.port = .bus tr :: rest)
    (h : tr.fits s.params) : ∃ t r, step s = .next t ∧ t.response = some r ∧ r.resp = .okay := by
  rw [step_of_port hport]
  cases tr with
  | read off size =>
    obtain ⟨r, hr, hok⟩ := State.serveRead_of_fits (s := { s with port := rest }) h
    exact ⟨_, r, rfl, hr, hok⟩
  | write off data => exact State.serveWrite_of_fits (s := { s with port := rest }) h

/-- Settles O50: a transaction fits its offset, and gets OKAY, or it does not, and gets SLVERR with no effect. -/
theorem okayExactlyForOwnOffsetAndSize : Obligations.OkayExactlyForOwnOffsetAndSize := by
  intro s rest tr hport
  rw [← Transaction.fits_iff]
  by_cases hfits : tr.fits s.params
  · obtain ⟨t, r, hstep, hr, hok⟩ := step_of_fits hport hfits
    exact ⟨t, r, hstep, hr, iff_of_true hok hfits, by simp [hok]⟩
  · exact ⟨_, slverr, step_of_not_fits hport hfits, rfl, iff_of_false (by decide) hfits, fun _ => rfl⟩

/-! ### The HMAC step (R246) -/

/-- The writes of a list of bytes to a window go to one byte after the other (R110). -/
theorem windowWrites_eq_mapIdx (b : Buffer) (bs : List Byte) (k : Nat) :
    windowWrites b k bs = bs.mapIdx (fun j v => .write (BitVec.ofNat 14 (b.base + (k + j))) (.one v)) := by
  induction bs generalizing k with
  | nil => rfl
  | cons v vs ih =>
    rw [windowWrites, ih, List.mapIdx_cons]
    simp only [Nat.add_zero, Nat.add_assoc, Nat.add_comm 1]

theorem windowWrites_toList (b : Buffer) {n : Nat} (d : Vector Byte n) :
    windowWrites b 0 d.toList =
      (List.finRange n).map (fun i => .write (BitVec.ofNat 14 (b.base + i.val)) (.one d[i])) := by
  rw [windowWrites_eq_mapIdx]
  refine List.ext_getElem (by simp) (fun j _ _ => ?_)
  simp

/-- Settles O58: the digest's 20 writes go before what waits at the port, and only the read counter moves besides. -/
theorem hmacStepWritesTheDigestThroughThePort : Obligations.HmacStepWritesTheDigestThroughThePort := by
  intro s rest hport
  refine ⟨_, step_of_port hport, ?_⟩
  simp only [State.serveHmac, windowWrites_toList, List.map_map]
  rfl

end Sys2Proof.Machine
end

section
/-! PROOFS. The reset and hazards family (70_reset_and_hazards.md): what a reset at the port leaves, and that writes to
the staging table do not reach ENC and DEC. -/

namespace Sys2Proof.Machine
open Sys2Proof.Spec

/-! ### The staging table (R266) -/

/-- The state after writes to the staging table: one byte of ALPHA and ALPHA_LEN (R266). -/
def State.stage (s : State) (v : Nat) (x : Byte) (len : BitVec 9) : State :=
  { s with mem := s.mem.writeByte (0x100 + v) x, alphaLen := len }

theorem State.stage_byteAt (s : State) {v a : Nat} (x : Byte) (len : BitVec 9) (ha : a ≠ 0x100 + v) :
    (s.stage v x len).mem.byteAt a = s.mem.byteAt a :=
  s.mem.byteAt_writeByte_other x ha

/-- ALPHA ends below IN_BUF (R62), so the input reads as before. -/
theorem State.stage_readBuf_inBuf (s : State) {v : Nat} (x : Byte) (len : BitVec 9) (hv : v < 256) (pass k : Nat) :
    (s.stage v x len).readBuf pass .inBuf k = s.readBuf pass .inBuf k := by
  refine List.map_congr_left (fun i _ => ?_)
  have hin : Buffer.inBuf.base + i ≠ 0x100 + v := by simp only [Buffer.base]; omega
  simp only [State.storage, s.stage_byteAt x len hin]
  rfl

theorem State.stage_encOutput (s : State) {v : Nat} (x : Byte) (len : BitVec 9) (hv : v < 256) :
    (s.stage v x len).encOutput = s.encOutput := by
  simp only [State.encOutput, s.stage_readBuf_inBuf x len hv]
  rfl

theorem State.stage_decValues (s : State) {v : Nat} (x : Byte) (len : BitVec 9) (hv : v < 256) :
    (s.stage v x len).decValues = s.decValues := by
  simp only [State.decValues, State.decLength, s.stage_readBuf_inBuf x len hv]
  rfl

/-- A command ends the same way on `s` and on `s'`: with the same failure, or with the same output (R14, R137, R150). -/
inductive SameEnding (s s' : State) : Host.Outcome State Fault Refusal → Host.Outcome State Fault Refusal → Prop
  | failure (e : ErrCode) (info : BitVec 16) : SameEnding s s' (fail e info s) (fail e info s')
  | output (bs : List Byte) : SameEnding s s' (succeed (s.putOutput bs)) (succeed (s'.putOutput bs))

/-- Two commands that branch on the same condition end the same way if they do in both branches. -/
theorem SameEnding.ite {s s' : State} {c : Prop} [Decidable c] {o p o' p' : Host.Outcome State Fault Refusal}
    (hthen : SameEnding s s' o p) (helse : SameEnding s s' o' p') :
    SameEnding s s' (if c then o else o') (if c then p else p') := by
  split
  · exact hthen
  · exact helse

theorem State.endDec_stage (s : State) (v : Nat) (x : Byte) (len : BitVec 9) (values : Except Nat (List Nat)) :
    SameEnding s (s.stage v x len) (s.endDec values) ((s.stage v x len).endDec values) := by
  cases values with
  | error i => exact .failure .badSym _
  | ok vals => exact .ite (.failure .ovf _) (.output _)

theorem exec_enc_stage (s : State) {v : Nat} (x : Byte) (len : BitVec 9) (hv : v < 256) :
    SameEnding s (s.stage v x len) (exec .enc s) (exec .enc (s.stage v x len)) := by
  rw [exec_enc_eq, exec_enc_eq, s.stage_encOutput x len hv]
  exact .ite (.failure .noCfg _) (.ite (.failure .len _) (.ite (.failure .ovf _) (.output _)))

theorem exec_dec_stage (s : State) {v : Nat} (x : Byte) (len : BitVec 9) (hv : v < 256) :
    SameEnding s (s.stage v x len) (exec .dec s) (exec .dec (s.stage v x len)) := by
  simp only [exec, execDec_eq_endDec, s.stage_decValues x len hv]
  exact .ite (.failure .noCfg _) (.ite (.failure .len _) (s.endDec_stage v x len s.decValues))

/-- Settles O38: ENC and DEC read IN_BUF and the latched table alone, so they end the same way, and what they write to
OUT_BUF leaves the rest of storage as it was. -/
theorem stagingTableDoesNotReachEncAndDec : Obligations.StagingTableDoesNotReachEncAndDec := by
  intro i s t u v x len hi hv ht hu
  have hsame : SameEnding s (s.stage v x len) (.next t) (.next u) := by
    rw [← ht, ← hu]
    rcases hi with rfl | rfl
    · exact exec_enc_stage s x len hv
    · exact exec_dec_stage s x len hv
  have hframe := fun a => s.stage_byteAt (v := v) (a := a) x len
  cases hsame with
  | failure e info => exact ⟨rfl, rfl, rfl, hframe⟩
  | output bs =>
    refine ⟨rfl, rfl, rfl, fun a ha => ?_⟩
    simp only [State.report_mem, State.putOutput_mem, Memory.byteAt_writeBytes, hframe a ha]

/-! ### Resets at the port (R260, R262) -/

theorem powered_powerOn (s : State) : powered s s.powerOn := rfl

/-- The registers read as after reset because the block is the reset one (R23). -/
theorem State.regRead_of_toBlock_reset {t : State} (h : t.toBlock = Block.reset) (r : Reg) :
    t.regRead r = if r = .codeLen then 6#32 else 0#32 :=
  (State.regRead_of_toBlock_eq (s := State.reset) h r).trans (resetGivesTheRegistersTheirResetValues r)

/-- Settles O12: the step is power-on, and power-on leaves the reset block. -/
theorem pinResetGivesTheResetState : Obligations.PinResetGivesTheResetState := by
  intro s rest hport
  exact ⟨_, step_of_port hport, powered_powerOn _, State.regRead_of_toBlock_reset rfl, fun _ => rfl, fun _ => rfl⟩

/-- A reset during a CMD write is power-on before the command or after it, as the free choice has it (log 9). -/
theorem State.serveResetDuringCmd_of_execWord {s u : State} {w : Word} (h : execWord w s = .next u) :
    s.serveResetDuringCmd w = .next (if Config.resetFirst s.tick then s.powerOn else u.powerOn) := by
  unfold State.serveResetDuringCmd
  rw [h]
  split <;> rfl

/-- Settles O13, by the two values of the choice. -/
theorem resetDuringACommandIsBeforeOrAfterIt : Obligations.ResetDuringACommandIsBeforeOrAfterIt := by
  intro s rest w hport
  obtain ⟨u, hu⟩ := execWord_next w { s with port := rest }
  refine ⟨_, u, (step_of_port hport).trans (State.serveResetDuringCmd_of_execWord hu), hu, ?_⟩
  split
  · exact .inl (powered_powerOn _)
  · exact .inr (powered_powerOn u)

end Sys2Proof.Machine
end
